-- ==== Sys2Proof/Word.lean ====
section
/-! DEFINITION. The two word types of the machine (spec/00_scope.md R6: XLEN = 8, PC_WIDTH = 9). -/

namespace Sys2Proof

/-- A memory cell, a register, an operand byte or a literal: the spec's `u8` (00_scope R6, R10). -/
abbrev Byte := BitVec 8

/-- A value of the program counter, of `fault_pc` or of `info`: 9 bits (00_scope R6, R8). -/
abbrev PcWord := BitVec 9

end Sys2Proof
end

