-- ==== Sys2Proof/Config.lean ====
section
/-! DEFINITION. What an implementation of the hardware fixes: the three open parameters of spec/00_scope.md R6
(`OPCODE_MAP`, `INCDEC_MODE`, `JUMP_FAMILY`) as plain data. The default VALUES stand in Sys2Proof/Decode.lean (the
opcode bytes) and Sys2Proof/Machine/Params.lean (sizes and reset values), each in one place. -/

namespace Sys2Proof

/-- The opcodes that spec/opcode_table.json names. The first 29 are the opcodes of 30_encoding R63; the last five are
the names it lists as unrecognised in this hardware (R63, R67, R68). -/
inductive Opcode where
  | nop | hlt | ret | push | pop | prn | call | jmp | jeq | jne | jgt | jlt | jle | jge | inc | dec | not
  | ldi | add | sub | mul | div | mod | cmp | and | or | xor | shl | shr | int | iret | ld | st | pra
  deriving DecidableEq, Repr

/-- Every opcode, in the order of spec/opcode_table.json. -/
def Opcode.all : List Opcode :=
  [.nop, .hlt, .ret, .push, .pop, .prn, .call, .jmp, .jeq, .jne, .jgt, .jlt, .jle, .jge, .inc, .dec, .not,
   .ldi, .add, .sub, .mul, .div, .mod, .cmp, .and, .or, .xor, .shl, .shr, .int, .iret, .ld, .st, .pra]

/-- The seven opcodes of the jump family (44_jumps R160). -/
def Opcode.isJump : Opcode → Bool
  | .jmp | .jeq | .jne | .jgt | .jlt | .jle | .jge => true
  | _ => false

/-- `OPCODE_MAP` (00_scope R6, 30_encoding R63): the byte value of each opcode. The last five fields give the bytes of
the names the table lists as unrecognised. -/
structure OpcodeMap where
  nop : Byte
  hlt : Byte
  ret : Byte
  push : Byte
  pop : Byte
  prn : Byte
  call : Byte
  jmp : Byte
  jeq : Byte
  jne : Byte
  jgt : Byte
  jlt : Byte
  jle : Byte
  jge : Byte
  inc : Byte
  dec : Byte
  not : Byte
  ldi : Byte
  add : Byte
  sub : Byte
  mul : Byte
  div : Byte
  mod : Byte
  cmp : Byte
  and : Byte
  or : Byte
  xor : Byte
  shl : Byte
  shr : Byte
  int : Byte
  iret : Byte
  ld : Byte
  st : Byte
  pra : Byte
  deriving DecidableEq, Repr

/-- The byte that stands for an opcode. -/
def OpcodeMap.byte (m : OpcodeMap) : Opcode → Byte
  | .nop => m.nop
  | .hlt => m.hlt
  | .ret => m.ret
  | .push => m.push
  | .pop => m.pop
  | .prn => m.prn
  | .call => m.call
  | .jmp => m.jmp
  | .jeq => m.jeq
  | .jne => m.jne
  | .jgt => m.jgt
  | .jlt => m.jlt
  | .jle => m.jle
  | .jge => m.jge
  | .inc => m.inc
  | .dec => m.dec
  | .not => m.not
  | .ldi => m.ldi
  | .add => m.add
  | .sub => m.sub
  | .mul => m.mul
  | .div => m.div
  | .mod => m.mod
  | .cmp => m.cmp
  | .and => m.and
  | .or => m.or
  | .xor => m.xor
  | .shl => m.shl
  | .shr => m.shr
  | .int => m.int
  | .iret => m.iret
  | .ld => m.ld
  | .st => m.st
  | .pra => m.pra

/-- No two opcodes share a byte, so that the classes are disjoint (30_encoding R65, R72). -/
def OpcodeMap.distinct (m : OpcodeMap) : Bool :=
  decide (Opcode.all.map m.byte).Nodup

/-- `INCDEC_MODE` (00_scope R6, 40_alu R106): what INC and DEC do. -/
inductive IncDecMode where
  | intended
  | referenceNoop
  deriving DecidableEq, Repr

/-- `JUMP_FAMILY` (00_scope R6, 44_jumps R160): whether the decoder dispatches the jump opcodes. -/
inductive JumpFamily where
  | present
  | absent
  deriving DecidableEq, Repr

/-- The configuration fields of 00_scope R6. -/
structure Config where
  opcodeMap  : OpcodeMap
  incdecMode : IncDecMode
  jumpFamily : JumpFamily
  deriving DecidableEq, Repr

/-- Whether an opcode is one the decoder knows by name: all but the jump family when `JUMP_FAMILY = absent`
(30_encoding R63). -/
def Config.names (c : Config) (o : Opcode) : Bool :=
  match c.jumpFamily with
  | .present => true
  | .absent => !o.isJump

end Sys2Proof
end

