-- ==== Sys2Proof/Syntax.lean ====
section
/-! DEFINITION. The instructions: one constructor per row of spec/opcode_table.json, with the operand BYTES as they stand in
memory (30_encoding R61, R62: an operand is the whole byte, never masked). -/

namespace Sys2Proof

/-- The instructions of spec/opcode_table.json, in its order. `a` and `b` are the two operand bytes of format RR, `r` the
register byte of formats R and RI, `imm` the literal of LDI (30_encoding R61). -/
inductive Instr where
  /-- NOP: 41_system R132. -/
  | nop
  /-- HLT: 41_system R130. -/
  | hlt
  /-- RET: 43_call_return R151. -/
  | ret
  /-- PUSH: 42_load_stack R141. -/
  | push (r : Byte)
  /-- POP: 42_load_stack R142. -/
  | pop (r : Byte)
  /-- PRN: 41_system R131. -/
  | prn (r : Byte)
  /-- CALL: 43_call_return R150. -/
  | call (r : Byte)
  /-- JMP: 44_jumps R161. -/
  | jmp (r : Byte)
  /-- JEQ: 44_jumps R162. -/
  | jeq (r : Byte)
  /-- JNE: 44_jumps R163. -/
  | jne (r : Byte)
  /-- JGT: 44_jumps R164. -/
  | jgt (r : Byte)
  /-- JLT: 44_jumps R165. -/
  | jlt (r : Byte)
  /-- JLE: 44_jumps R166. -/
  | jle (r : Byte)
  /-- JGE: 44_jumps R167. -/
  | jge (r : Byte)
  /-- INC: 40_alu R106. -/
  | inc (a b : Byte)
  /-- DEC: 40_alu R107. -/
  | dec (a b : Byte)
  /-- NOT: 40_alu R114. -/
  | not (a b : Byte)
  /-- LDI: 42_load_stack R140. -/
  | ldi (r imm : Byte)
  /-- ADD: 40_alu R101. -/
  | add (a b : Byte)
  /-- SUB: 40_alu R102. -/
  | sub (a b : Byte)
  /-- MUL: 40_alu R103. -/
  | mul (a b : Byte)
  /-- DIV: 40_alu R104. -/
  | div (a b : Byte)
  /-- MOD: 40_alu R105. -/
  | mod (a b : Byte)
  /-- CMP: 40_alu R108. -/
  | cmp (a b : Byte)
  /-- AND: 40_alu R109. -/
  | and (a b : Byte)
  /-- OR: 40_alu R110. -/
  | or (a b : Byte)
  /-- XOR: 40_alu R111. -/
  | xor (a b : Byte)
  /-- SHL: 40_alu R112. -/
  | shl (a b : Byte)
  /-- SHR: 40_alu R113. -/
  | shr (a b : Byte)
  /-- INT: 30_encoding R67, R68. -/
  | int
  /-- IRET: 30_encoding R67, R68. -/
  | iret
  /-- LD: 30_encoding R67. -/
  | ld
  /-- ST: 30_encoding R67. -/
  | st
  /-- PRA: 30_encoding R67. -/
  | pra
  /-- The table's row "any other byte": a byte that is no opcode the decoder knows (30_encoding R67). -/
  | anyOtherByte (op : Byte)
  deriving DecidableEq, Repr

/-- The opcode of an instruction; `none` for a byte that has no name. -/
def Instr.opcode : Instr → Option Opcode
  | .nop => some .nop
  | .hlt => some .hlt
  | .ret => some .ret
  | .push _ => some .push
  | .pop _ => some .pop
  | .prn _ => some .prn
  | .call _ => some .call
  | .jmp _ => some .jmp
  | .jeq _ => some .jeq
  | .jne _ => some .jne
  | .jgt _ => some .jgt
  | .jlt _ => some .jlt
  | .jle _ => some .jle
  | .jge _ => some .jge
  | .inc _ _ => some .inc
  | .dec _ _ => some .dec
  | .not _ _ => some .not
  | .ldi _ _ => some .ldi
  | .add _ _ => some .add
  | .sub _ _ => some .sub
  | .mul _ _ => some .mul
  | .div _ _ => some .div
  | .mod _ _ => some .mod
  | .cmp _ _ => some .cmp
  | .and _ _ => some .and
  | .or _ _ => some .or
  | .xor _ _ => some .xor
  | .shl _ _ => some .shl
  | .shr _ _ => some .shr
  | .int => some .int
  | .iret => some .iret
  | .ld => some .ld
  | .st => some .st
  | .pra => some .pra
  | .anyOtherByte _ => none

end Sys2Proof
end

