-- ==== Sys2Proof/WellFormed.lean ====
section
/-! DEFINITION. The instructions an encoding exists for under a configuration. Operand bytes are never reserved (30_encoding
R69), so the only checks are on the opcode: a jump exists only when `JUMP_FAMILY = present` (44_jumps R160), and the byte of
`anyOtherByte` is none that the decoder knows by name (30_encoding R65, R67). -/

namespace Sys2Proof

/-- The instruction is one that bytes can stand for under the configuration `c`. -/
def WellFormed (c : Config) (i : Instr) : Bool :=
  match i with
  | .anyOtherByte op => Opcode.all.all fun o => !(c.names o && c.opcodeMap.byte o == op)
  | .nop => c.names .nop
  | .hlt => c.names .hlt
  | .ret => c.names .ret
  | .push _ => c.names .push
  | .pop _ => c.names .pop
  | .prn _ => c.names .prn
  | .call _ => c.names .call
  | .jmp _ => c.names .jmp
  | .jeq _ => c.names .jeq
  | .jne _ => c.names .jne
  | .jgt _ => c.names .jgt
  | .jlt _ => c.names .jlt
  | .jle _ => c.names .jle
  | .jge _ => c.names .jge
  | .inc _ _ => c.names .inc
  | .dec _ _ => c.names .dec
  | .not _ _ => c.names .not
  | .ldi _ _ => c.names .ldi
  | .add _ _ => c.names .add
  | .sub _ _ => c.names .sub
  | .mul _ _ => c.names .mul
  | .div _ _ => c.names .div
  | .mod _ _ => c.names .mod
  | .cmp _ _ => c.names .cmp
  | .and _ _ => c.names .and
  | .or _ _ => c.names .or
  | .xor _ _ => c.names .xor
  | .shl _ _ => c.names .shl
  | .shr _ _ => c.names .shr
  | .int => c.names .int
  | .iret => c.names .iret
  | .ld => c.names .ld
  | .st => c.names .st
  | .pra => c.names .pra

end Sys2Proof
end

