-- ==== Sys2Proof/Decode.lean ====
section
/-! DEFINITION. The default opcode bytes, the decoder and the encoder (spec/30_encoding.md). The byte values stand in ONE table,
`OpcodeMap.ls8`. -/

namespace Sys2Proof

/-- The default `OPCODE_MAP`: the LS-8 table of 30_encoding R63 (UNVERIFIED: the spec marks it as "from general
knowledge, not in source"; log entry 2). -/
def OpcodeMap.ls8 : OpcodeMap where
  nop := 0x00
  hlt := 0x01
  ret := 0x11
  push := 0x45
  pop := 0x46
  prn := 0x47
  call := 0x50
  jmp := 0x54
  jeq := 0x55
  jne := 0x56
  jgt := 0x57
  jlt := 0x58
  jle := 0x59
  jge := 0x5A
  inc := 0x65
  dec := 0x66
  not := 0x69
  ldi := 0x82
  add := 0xA0
  sub := 0xA1
  mul := 0xA2
  div := 0xA3
  mod := 0xA4
  cmp := 0xA7
  and := 0xA8
  or := 0xAA
  xor := 0xAB
  shl := 0xAC
  shr := 0xAD
  int := 0x52
  iret := 0x13
  ld := 0x83
  st := 0x84
  pra := 0x48

/-- The default configuration (00_scope R6; 92 D2, D3, D5). -/
def Config.default : Config where
  opcodeMap := OpcodeMap.ls8
  incdecMode := .intended
  jumpFamily := .present

/-- The classes of 30_encoding R65. -/
inductive OpClass where
  | alu | ldi | prn | push | pop | call | ret | hlt | nop | jump | unrecognised
  deriving DecidableEq, Repr

/-- The class of an opcode (30_encoding R63, column class). NOT is in the ALU class (R65, 92 D4). -/
def Opcode.cls : Opcode → OpClass
  | .nop => .nop
  | .hlt => .hlt
  | .ret => .ret
  | .push => .push
  | .pop => .pop
  | .prn => .prn
  | .call => .call
  | .jmp => .jump
  | .jeq => .jump
  | .jne => .jump
  | .jgt => .jump
  | .jlt => .jump
  | .jle => .jump
  | .jge => .jump
  | .inc => .alu
  | .dec => .alu
  | .not => .alu
  | .ldi => .ldi
  | .add => .alu
  | .sub => .alu
  | .mul => .alu
  | .div => .alu
  | .mod => .alu
  | .cmp => .alu
  | .and => .alu
  | .or => .alu
  | .xor => .alu
  | .shl => .alu
  | .shr => .alu
  | .int => .unrecognised
  | .iret => .unrecognised
  | .ld => .unrecognised
  | .st => .unrecognised
  | .pra => .unrecognised

/-- The length in bytes that a class fixes; an unrecognised opcode has none (30_encoding R60, R66). -/
def OpClass.length : OpClass → Option Nat
  | .alu | .ldi => some 3
  | .prn | .push | .pop | .call | .jump => some 2
  | .ret | .hlt | .nop => some 1
  | .unrecognised => none

/-- The class of an instruction (30_encoding R65). -/
def Instr.cls (i : Instr) : OpClass :=
  match i.opcode with
  | some o => o.cls
  | none => .unrecognised

/-- The length of an instruction; none when the opcode is unrecognised (30_encoding R60). -/
def Instr.length (i : Instr) : Option Nat := i.cls.length

/-- The opcode whose byte equals `op`, by value equality (30_encoding R65); `none` when no row of the table matches. Where
an `OPCODE_MAP` gives two opcodes one byte, the first in the table's order is taken (DESIGN CHOICE, log entry 5). -/
def Config.opcodeOf (c : Config) (op : Byte) : Option Opcode :=
  Opcode.all.find? fun o => c.names o && c.opcodeMap.byte o == op

/-- `Class(op)` (30_encoding R65): total on the 256 byte values. -/
def Config.classOf (c : Config) (op : Byte) : OpClass :=
  match c.opcodeOf op with
  | some o => o.cls
  | none => .unrecognised

/-- Why no instruction can be read: a byte of it is not there. Nothing else is ever rejected, since every byte value has a
class and every operand byte is legal (30_encoding R65, R69). -/
inductive DecodeError where
  /-- There is no opcode byte. -/
  | opcodeMissing
  /-- The first operand byte is not there. -/
  | firstOperandMissing
  /-- The second operand byte is not there. -/
  | secondOperandMissing
  deriving DecidableEq, Repr

/-- How far the missing byte lies behind the opcode byte (30_encoding R61: byte k sits at `pc + k`). -/
def DecodeError.offset : DecodeError → Nat
  | .opcodeMissing => 0
  | .firstOperandMissing => 1
  | .secondOperandMissing => 2

/-- Format R: one operand byte behind the opcode (30_encoding R61). -/
def oneOperand (mk : Byte → Instr) : List Byte → Except DecodeError (Instr × List Byte)
  | [] => .error .firstOperandMissing
  | r :: rest => .ok (mk r, rest)

/-- Formats RR and RI: two operand bytes behind the opcode, in ascending order (30_encoding R61, R73). -/
def twoOperands (mk : Byte → Byte → Instr) : List Byte → Except DecodeError (Instr × List Byte)
  | [] => .error .firstOperandMissing
  | [_] => .error .secondOperandMissing
  | a :: b :: rest => .ok (mk a b, rest)

/-- The instruction of a dispatched opcode, with its operand bytes read from the bytes behind the opcode (30_encoding R61, R73).
A named opcode that is unrecognised reads none (R67). -/
def decodeOperands (o : Opcode) (rest : List Byte) : Except DecodeError (Instr × List Byte) :=
  match o with
  | .nop => .ok (.nop, rest)
  | .hlt => .ok (.hlt, rest)
  | .ret => .ok (.ret, rest)
  | .push => oneOperand .push rest
  | .pop => oneOperand .pop rest
  | .prn => oneOperand .prn rest
  | .call => oneOperand .call rest
  | .jmp => oneOperand .jmp rest
  | .jeq => oneOperand .jeq rest
  | .jne => oneOperand .jne rest
  | .jgt => oneOperand .jgt rest
  | .jlt => oneOperand .jlt rest
  | .jle => oneOperand .jle rest
  | .jge => oneOperand .jge rest
  | .inc => twoOperands .inc rest
  | .dec => twoOperands .dec rest
  | .not => twoOperands .not rest
  | .ldi => twoOperands .ldi rest
  | .add => twoOperands .add rest
  | .sub => twoOperands .sub rest
  | .mul => twoOperands .mul rest
  | .div => twoOperands .div rest
  | .mod => twoOperands .mod rest
  | .cmp => twoOperands .cmp rest
  | .and => twoOperands .and rest
  | .or => twoOperands .or rest
  | .xor => twoOperands .xor rest
  | .shl => twoOperands .shl rest
  | .shr => twoOperands .shr rest
  | .int => .ok (.int, rest)
  | .iret => .ok (.iret, rest)
  | .ld => .ok (.ld, rest)
  | .st => .ok (.st, rest)
  | .pra => .ok (.pra, rest)

/-- The decoder: the instruction at the head of a list of bytes, and the bytes behind it (30_encoding R61, R65, R66). For an
unrecognised opcode no operand byte is read (R67). -/
def decode (c : Config) : List Byte → Except DecodeError (Instr × List Byte)
  | [] => .error .opcodeMissing
  | op :: rest =>
    match c.opcodeOf op with
    | some o => decodeOperands o rest
    | none => .ok (.anyOtherByte op, rest)

/-- The encoder: the bytes of an instruction at ascending addresses, from the formats of 30_encoding R61 and the opcode
table (R63). -/
def encode (c : Config) : Instr → List Byte
  | .nop => [c.opcodeMap.nop]
  | .hlt => [c.opcodeMap.hlt]
  | .ret => [c.opcodeMap.ret]
  | .push r => [c.opcodeMap.push, r]
  | .pop r => [c.opcodeMap.pop, r]
  | .prn r => [c.opcodeMap.prn, r]
  | .call r => [c.opcodeMap.call, r]
  | .jmp r => [c.opcodeMap.jmp, r]
  | .jeq r => [c.opcodeMap.jeq, r]
  | .jne r => [c.opcodeMap.jne, r]
  | .jgt r => [c.opcodeMap.jgt, r]
  | .jlt r => [c.opcodeMap.jlt, r]
  | .jle r => [c.opcodeMap.jle, r]
  | .jge r => [c.opcodeMap.jge, r]
  | .inc a b => [c.opcodeMap.inc, a, b]
  | .dec a b => [c.opcodeMap.dec, a, b]
  | .not a b => [c.opcodeMap.not, a, b]
  | .ldi r imm => [c.opcodeMap.ldi, r, imm]
  | .add a b => [c.opcodeMap.add, a, b]
  | .sub a b => [c.opcodeMap.sub, a, b]
  | .mul a b => [c.opcodeMap.mul, a, b]
  | .div a b => [c.opcodeMap.div, a, b]
  | .mod a b => [c.opcodeMap.mod, a, b]
  | .cmp a b => [c.opcodeMap.cmp, a, b]
  | .and a b => [c.opcodeMap.and, a, b]
  | .or a b => [c.opcodeMap.or, a, b]
  | .xor a b => [c.opcodeMap.xor, a, b]
  | .shl a b => [c.opcodeMap.shl, a, b]
  | .shr a b => [c.opcodeMap.shr, a, b]
  | .int => [c.opcodeMap.int]
  | .iret => [c.opcodeMap.iret]
  | .ld => [c.opcodeMap.ld]
  | .st => [c.opcodeMap.st]
  | .pra => [c.opcodeMap.pra]
  | .anyOtherByte op => [op]

/-- The `n`th byte of a word numbered as spec/opcode_table.json numbers it: bit 0 is the least significant bit of the first
byte. -/
def tableByte (w n : Nat) : Byte := BitVec.ofNat 8 (w >>> (8 * n))

/-- The three bytes of the longest instruction, the first at the lowest address; every bit from `nbits` up is 0. -/
def tableBytes (nbits w : Nat) : List Byte :=
  let v := w % 2 ^ nbits
  [tableByte v 0, tableByte v 1, tableByte v 2]

/-- The instruction the decoder reads from an instruction whose bits are `w` (the host's interface), under the default
configuration. -/
def decodeTableWord (nbits w : Nat) : Option Instr :=
  match decode Config.default (tableBytes nbits w) with
  | .ok (i, _) => some i
  | .error _ => none

end Sys2Proof
end

