-- ==== Sys2Proof/Machine/Params.lean ====
section
/-! DEFINITION. The fixed parameters of spec/00_scope.md R5 as named constants, so that a later audit of the numeric literals
changes one definition (R5; 93 U13). `NREG = 8` is the length of the register file in the type of State. -/

namespace Sys2Proof.Machine

/-- `MEM_SIZE` (00_scope R5, 20_memory R40): addresses 0..255. -/
def memSize : Nat := 256

/-- `SP_RESET` (00_scope R5, 10_state R35). -/
def spReset : Byte := 0xF4

/-- `PC_RESET` (00_scope R5, 10_state R35). -/
def pcReset : PcWord := 0

/-- What a cell that memory does not list reads as: memory is "zero-initialized" (20_memory R40, R48). -/
def unlistedByte : Byte := 0

/-- The value of every general register but SP after reset (10_state R35). -/
def regReset : Byte := 0

end Sys2Proof.Machine
end

