-- ==== Sys2Proof/Machine/State.lean ====
section
/-! DEFINITION. The state of the machine as plain data (spec/10_state.md), the state after reset, and the reasons a step could
stop. -/

namespace Sys2Proof.Machine

/-- The condition flags latch (10_state R27): equal, less-than, greater-than. -/
structure Flags where
  e : Bool
  l : Bool
  g : Bool
  deriving DecidableEq, Repr

/-- The control FSM (10_state R29). A stall is no state of its own (R30). -/
inductive Fsm where
  | running
  | halted
  | faulted
  deriving DecidableEq, Repr

/-- The causes of a fault (60_exceptions R201). -/
inductive Cause where
  /-- A memory access at an address of 256 or more. -/
  | memRange
  /-- An access to a register index above 7. -/
  | regIndex
  /-- DIV or MOD with a divisor register that holds 0. -/
  | divZero
  /-- An opcode of the ALU class that the ALU has no entry for. -/
  | unsupportedAlu
  /-- A return address of CALL that does not fit a byte cell. -/
  | callReturnRange
  deriving DecidableEq, Repr

/-- What an instruction raises: `raise F(info)` (00_scope R13, 60_exceptions R201). -/
structure Raise where
  cause : Cause
  info  : PcWord
  deriving DecidableEq, Repr

/-- The fault record (10_state R31, 60_exceptions R203). -/
structure FaultRecord where
  cause   : Cause
  faultPc : PcWord
  info    : PcWord
  deriving DecidableEq, Repr

/-- The output events (10_state R32). -/
inductive Event where
  | print (v : Byte)
  | halt
  deriving DecidableEq, Repr

/-- Memory: the cells that differ from `unlistedByte`, by rising address (20_memory R40). Its canonical form is `Memory.wf` in
Sys2Proof/Machine/Ops.lean. -/
abbrev Memory := List Host.Cell

/-- The machine state: the tuple of 10_state R20, and the configuration it runs under (log entry 1: fixed, no step and no
reset changes it). -/
structure State where
  /-- The parameters of 00_scope R6. -/
  cfg   : Config
  /-- 256 byte cells. -/
  mem   : Memory
  /-- The register file: R0..R7, R7 is SP (R21, R22). -/
  x     : Vector Byte 8
  /-- The program counter, 9 bits (R25). -/
  pc    : PcWord
  /-- The condition flags latch (R27). -/
  flags : Flags
  /-- The state of the control FSM (R29). -/
  fsm   : Fsm
  /-- The fault record (R31). -/
  fault : Option FaultRecord
  /-- The output events in program order (R32). -/
  out   : List Event
  deriving DecidableEq, Repr

/-- The reasons the machine stops without a next state. There are NONE: every fatal condition of the hardware is a NEXT state
in which the control FSM is FAULTED (60_exceptions R204), and in HALTED and FAULTED a step does nothing (30_encoding R74). Nobody
raises one, which is safe (log entry 3). -/
inductive Fault where
  deriving DecidableEq, Repr

/-- The reasons an instruction is refused. -/
inductive Refusal where
  /-- Raised by exec's arm of an instruction that has no meaning yet; no arm raises it, since every row of the table has its
  meaning. Safe: a claim about such an instruction could not be proved. -/
  | notModelled (mnemonic : String)
  deriving DecidableEq, Repr

/-- Replace `mem`. -/
def State.setMem (s : State) (v : Memory) : State := { s with mem := v }

/-- Replace `x`. -/
def State.setX (s : State) (v : Vector Byte 8) : State := { s with x := v }

/-- Replace `pc`. -/
def State.setPc (s : State) (v : PcWord) : State := { s with pc := v }

/-- Replace `flags`. -/
def State.setFlags (s : State) (v : Flags) : State := { s with flags := v }

/-- Replace `fsm`. -/
def State.setFsm (s : State) (v : Fsm) : State := { s with fsm := v }

/-- Replace `fault`. -/
def State.setFault (s : State) (v : Option FaultRecord) : State := { s with fault := v }

/-- Replace `out`. -/
def State.setOut (s : State) (v : List Event) : State := { s with out := v }

/-- The state after power-on and reset (10_state R35): memory all zero, R0..R6 zero, SP at 0xF4, pc 0, flags false, RUNNING,
no fault, no output. The configuration is the default one (00_scope R6). -/
def State.reset : State where
  cfg := Config.default
  mem := []
  x := #v[regReset, regReset, regReset, regReset, regReset, regReset, regReset, spReset]
  pc := pcReset
  flags := ⟨false, false, false⟩
  fsm := .running
  fault := none
  out := []

end Sys2Proof.Machine
end

