-- ==== Sys2Proof/Machine/Ops.lean ====
section
/-! DEFINITION. The named operations: memory, registers, the stack cell, raising a fault, and fetching an instruction. They are
the primitives of spec/00_scope.md R11 to R13, in the same words. An operation that can raise answers `Except Raise`, so
that the first raise reached wins (R13) and every write before it is dropped (60_exceptions R204). -/

namespace Sys2Proof.Machine

/-! ### Memory (spec/20_memory.md) -/

/-- The byte a memory holds at an address. -/
def Memory.read : Memory → Nat → Byte
  | [], _ => unlistedByte
  | (a, v) :: m, addr => if a = addr then v else Memory.read m addr

/-- Put a cell in front of the first cell with a higher address. -/
def Memory.insertCell (addr : Nat) (v : Byte) : Memory → Memory
  | [] => [(addr, v)]
  | (a, w) :: m => if a < addr then (a, w) :: Memory.insertCell addr v m else (addr, v) :: (a, w) :: m

/-- The memory with one byte replaced, in canonical form: a cell that holds `unlistedByte` is not listed. -/
def Memory.write (m : Memory) (addr : Nat) (v : Byte) : Memory :=
  let others := m.filter fun c => c.1 != addr
  if v = unlistedByte then others else Memory.insertCell addr v others

/-- The canonical form: addresses strictly rise, each lies in the address space, and no cell holds `unlistedByte`. -/
def Memory.wf (m : Memory) : Bool :=
  decide ((m.map fun c => c.1).Pairwise fun a b => a < b) &&
    m.all fun c => decide (c.1 < memSize) && c.2 != unlistedByte

/-- `FatalMemRange(addr)` (00_scope R12, 60_exceptions R201). -/
def memRange (addr : Nat) : Raise := ⟨.memRange, BitVec.ofNat 9 addr⟩

/-- `MemRead(addr, 1)` (00_scope R12, 20_memory R41). -/
def memRead (m : Memory) (addr : Nat) : Except Raise Byte :=
  if addr < memSize then .ok (m.read addr) else .error (memRange addr)

/-- `MemWrite(addr, 1, v)` (00_scope R12, 20_memory R41). -/
def memWrite (m : Memory) (addr : Nat) (v : Byte) : Except Raise Memory :=
  if addr < memSize then .ok (m.write addr v) else .error (memRange addr)

/-! ### Registers (spec/10_state.md) -/

/-- `FatalRegIndex(i)` (00_scope R11, 60_exceptions R201). -/
def regIndex (i : Byte) : Raise := ⟨.regIndex, i.setWidth 9⟩

/-- Read `x[i]`, with the index check (00_scope R11). -/
def State.readReg (s : State) (i : Byte) : Except Raise Byte :=
  if h : i.toNat < 8 then .ok s.x[i.toNat] else .error (regIndex i)

/-- `x[i] <- v`, with the index check (00_scope R11). -/
def State.writeReg (s : State) (i v : Byte) : Except Raise State :=
  if h : i.toNat < 8 then .ok (s.setX (s.x.set i.toNat v)) else .error (regIndex i)

/-- `SP`, another name for `x[7]` (00_scope R5, R11). -/
def State.sp (s : State) : Byte := s.x[7]

/-- `x[7] <- v`. -/
def State.setSp (s : State) (v : Byte) : State := s.setX (s.x.set 7 v)

/-! ### The stack cell (10_state R24) -/

/-- The cell the next push writes: SP - 1, modulo 256 (10_state R24). -/
def State.pushAddr (s : State) : Byte := s.sp - 1

/-- `x[7] <- (x[7] - 1) mod 256`. -/
def State.decSp (s : State) : State := s.setSp s.pushAddr

/-- `x[7] <- (x[7] + 1) mod 256`. -/
def State.incSp (s : State) : State := s.setSp (s.sp + 1)

/-- `MemRead(x[7], 1)`. -/
def State.loadAtSp (s : State) : Except Raise Byte := memRead s.mem s.sp.toNat

/-- `MemWrite(x[7], 1, v)`. -/
def State.storeAtSp (s : State) (v : Byte) : Except Raise State := do
  let m ← memWrite s.mem s.sp.toNat v
  return s.setMem m

/-! ### Control and events (00_scope R13) -/

/-- `pc <- pc + n`, in 9 bits (10_state R25). -/
def State.advance (s : State) (n : PcWord) : State := s.setPc (s.pc + n)

/-- `pc <- v` for a byte: a jump, call or return target (10_state R26). -/
def State.goto (s : State) (target : Byte) : State := s.setPc (target.setWidth 9)

/-- `emit e` (10_state R32: in program order, the newest last). -/
def State.emit (s : State) (e : Event) : State := s.setOut (s.out ++ [e])

/-- Fault entry (60_exceptions R203, R204): the state before the instruction, with the record set and the FSM in FAULTED.
`fault_pc` is the pc of the faulting instruction. There is no return from a fault (R205). -/
def State.takeFault (s : State) (r : Raise) : State :=
  (s.setFault (some ⟨r.cause, s.pc, r.info⟩)).setFsm .faulted

/-- End an instruction that began in `s`: keep its result, or, where it raised, drop every write of it and enter the fault
(60_exceptions R204). -/
def commit (s : State) : Except Raise State → Host.Outcome State Fault Refusal
  | .ok t => .next t
  | .error r => .next (s.takeFault r)

/-- `stall`: the step ends with no state changed (00_scope R13, 30_encoding R67). -/
def stall (s : State) : Host.Outcome State Fault Refusal := .next s

/-! ### Fetch (30_encoding R72, R73) -/

/-- The bytes at `addr`, `addr + 1`, …, at most `n` of them, up to the first address that is out of range. -/
def Memory.bytesFrom (m : Memory) (addr : Nat) : Nat → List Byte
  | 0 => []
  | n + 1 =>
    match memRead m addr with
    | .ok b => b :: m.bytesFrom (addr + 1) n
    | .error _ => []

/-- Fetch and decode the instruction at `pc`. A byte of it that is out of range raises `FatalMemRange` with its address, the
lowest such address first (30_encoding R72, R73). Reads have no side effect (20_memory R45), so reading bytes the
instruction does not have cannot be seen (log entry 6). -/
def fetch (s : State) : Except Raise Instr :=
  match decode s.cfg (s.mem.bytesFrom s.pc.toNat 3) with
  | .ok (i, _) => .ok i
  | .error e => .error (memRange (s.pc.toNat + e.offset))

/-- A step is defined only in RUNNING; in HALTED and FAULTED it does nothing (10_state R29, 30_encoding R74). -/
def State.stepEnabled (s : State) : Bool := s.fsm == .running

/-- Store bytes at ascending addresses, those in range. -/
def Memory.writeBytes (m : Memory) (addr : Nat) : List Byte → Memory
  | [] => m
  | b :: bs =>
    match memWrite m addr b with
    | .ok m' => m'.writeBytes (addr + 1) bs
    | .error _ => m

end Sys2Proof.Machine
end

