-- ==== Sys2Proof/Machine/Operands.lean ====
section
/-! DEFINITION. The operand forms: what the instructions of one format have in common (spec/30_encoding.md R61, R62;
spec/40_alu.md R100; spec/44_jumps.md R160). -/

namespace Sys2Proof.Machine

/-- `trunc8(v) = v mod 256` (00_scope R10). -/
def trunc8 (v : Nat) : Byte := BitVec.ofNat 8 v

/-- Both register operands of format RR, `x[a]` first and then `x[b]` (40_alu R100). -/
def readPair (s : State) (a b : Byte) : Except Raise (Byte × Byte) := do
  let va ← s.readReg a
  let vb ← s.readReg b
  return (va, vb)

/-- `reg[regA] = reg[regA] <op> reg[regB]`: compute in unbounded naturals, reduce modulo 256, write `x[a]` (40_alu R100). -/
def aluBinary (f : Nat → Nat → Nat) (a b : Byte) (s : State) : Except Raise State := do
  let (va, vb) ← readPair s a b
  let t ← s.writeReg a (trunc8 (f va.toNat vb.toNat))
  return t.advance 3

/-- `FatalDivZero(b)`: the info is the divisor's register index (60_exceptions R201). -/
def divZero (b : Byte) : Raise := ⟨.divZero, b.setWidth 9⟩

/-- The form of DIV and MOD: a zero divisor is fatal, after both register checks (40_alu R104, R105). -/
def aluDivide (f : Nat → Nat → Nat) (a b : Byte) (s : State) : Except Raise State := do
  let (va, vb) ← readPair s a b
  if vb = 0 then throw (divZero b)
  let t ← s.writeReg a (trunc8 (f va.toNat vb.toNat))
  return t.advance 3

/-- The register INC and DEC act on: `a` if it is not 0, else `b` (40_alu R106). -/
def incDecTarget (a b : Byte) : Byte := if a ≠ 0 then a else b

/-- The form of INC and DEC under both values of `INCDEC_MODE` (40_alu R106, R107). The operand that is not selected is not
accessed and not checked. -/
def aluIncDec (f : Nat → Nat) (a b : Byte) (s : State) : Except Raise State :=
  match s.cfg.incdecMode with
  | .referenceNoop => .ok (s.advance 3)
  | .intended => do
    let v ← s.readReg (incDecTarget a b)
    let t ← s.writeReg (incDecTarget a b) (trunc8 (f v.toNat))
    return t.advance 3

/-- The form of the jump family: the register is read and checked whether or not the jump is taken (44_jumps R160). -/
def jumpIf (taken : Bool) (r : Byte) (s : State) : Except Raise State := do
  let target ← s.readReg r
  return if taken then s.goto target else s.advance 2

end Sys2Proof.Machine
end

