-- ==== Sys2Proof/Machine/Flags.lean ====
section
/-! DEFINITION. The flag computation of CMP, the conditions the jump family reads from the flags, and the packed view. -/

namespace Sys2Proof.Machine

/-- The flags CMP writes: all three, by an unsigned comparison (40_alu R108). -/
def compareFlags (va vb : Byte) : Flags where
  e := decide (va.toNat = vb.toNat)
  l := decide (va.toNat < vb.toNat)
  g := decide (va.toNat > vb.toNat)

/-- JMP is always taken (44_jumps R161). -/
def condJmp (_ : Flags) : Bool := true

/-- `Cond = E` (44_jumps R162). -/
def condJeq (f : Flags) : Bool := f.e

/-- `Cond = not E` (44_jumps R163). -/
def condJne (f : Flags) : Bool := !f.e

/-- `Cond = G` (44_jumps R164). -/
def condJgt (f : Flags) : Bool := f.g

/-- `Cond = L` (44_jumps R165). -/
def condJlt (f : Flags) : Bool := f.l

/-- `Cond = L or E` (44_jumps R166). -/
def condJle (f : Flags) : Bool := f.l || f.e

/-- `Cond = G or E` (44_jumps R167). -/
def condJge (f : Flags) : Bool := f.g || f.e

/-- The packed view `FL = 0b00000LGE`, for debug displays only: no instruction reads it (10_state R28). -/
def Flags.packed (f : Flags) : Byte :=
  (BitVec.ofBool f.l ++ BitVec.ofBool f.g ++ BitVec.ofBool f.e).setWidth 8

end Sys2Proof.Machine
end

