-- ==== Sys2Proof/Machine/Alu.lean ====
section
/-! DEFINITION. The ALU family (spec/40_alu.md): ADD SUB MUL DIV MOD INC DEC CMP AND OR XOR SHL SHR NOT. -/

namespace Sys2Proof.Machine

/-- ADD (40_alu R101): `x[a] <- (va + vb) mod 256`. -/
def execAdd (a b : Byte) (s : State) : Host.Outcome State Fault Refusal :=
  commit s (aluBinary (fun va vb => va + vb) a b s)

/-- SUB (40_alu R102): `x[a] <- (va + 256 - vb) mod 256`. -/
def execSub (a b : Byte) (s : State) : Host.Outcome State Fault Refusal :=
  commit s (aluBinary (fun va vb => va + 256 - vb) a b s)

/-- MUL (40_alu R103): `x[a] <- (va * vb) mod 256`. -/
def execMul (a b : Byte) (s : State) : Host.Outcome State Fault Refusal :=
  commit s (aluBinary (fun va vb => va * vb) a b s)

/-- DIV (40_alu R104): the unsigned floor quotient; a zero divisor raises. -/
def execDiv (a b : Byte) (s : State) : Host.Outcome State Fault Refusal :=
  commit s (aluDivide (fun va vb => va / vb) a b s)

/-- MOD (40_alu R105): the unsigned remainder; a zero divisor raises. -/
def execMod (a b : Byte) (s : State) : Host.Outcome State Fault Refusal :=
  commit s (aluDivide (fun va vb => va % vb) a b s)

/-- INC (40_alu R106): `x[t] <- (x[t] + 1) mod 256`. -/
def execInc (a b : Byte) (s : State) : Host.Outcome State Fault Refusal :=
  commit s (aluIncDec (fun v => v + 1) a b s)

/-- DEC (40_alu R107): `x[t] <- (x[t] - 1) mod 256`. -/
def execDec (a b : Byte) (s : State) : Host.Outcome State Fault Refusal :=
  commit s (aluIncDec (fun v => v + 255) a b s)

/-- CMP (40_alu R108): writes E, L and G, and no register. -/
def execCmp (a b : Byte) (s : State) : Host.Outcome State Fault Refusal :=
  commit s do
    let (va, vb) ← readPair s a b
    return (s.setFlags (compareFlags va vb)).advance 3

/-- AND (40_alu R109): bitwise AND. -/
def execAnd (a b : Byte) (s : State) : Host.Outcome State Fault Refusal :=
  commit s (aluBinary (fun va vb => va &&& vb) a b s)

/-- OR (40_alu R110): bitwise OR. -/
def execOr (a b : Byte) (s : State) : Host.Outcome State Fault Refusal :=
  commit s (aluBinary (fun va vb => va ||| vb) a b s)

/-- XOR (40_alu R111): bitwise XOR. -/
def execXor (a b : Byte) (s : State) : Host.Outcome State Fault Refusal :=
  commit s (aluBinary (fun va vb => va ^^^ vb) a b s)

/-- SHL (40_alu R112): logical, by the whole 8-bit amount. -/
def execShl (a b : Byte) (s : State) : Host.Outcome State Fault Refusal :=
  commit s (aluBinary (fun va vb => va <<< vb) a b s)

/-- SHR (40_alu R113): logical, by the whole 8-bit amount. -/
def execShr (a b : Byte) (s : State) : Host.Outcome State Fault Refusal :=
  commit s (aluBinary (fun va vb => va >>> vb) a b s)

/-- `FatalUnsupportedAlu(op)`: the info is the opcode byte (40_alu R116, 60_exceptions R201). -/
def unsupportedAlu (op : Byte) : Raise := ⟨.unsupportedAlu, op.setWidth 9⟩

/-- NOT (40_alu R114): no ALU entry, so it always raises; the two operand bytes are ignored and no register is read. -/
def execNot (_ _ : Byte) (s : State) : Host.Outcome State Fault Refusal :=
  commit s (.error (unsupportedAlu s.cfg.opcodeMap.not))

end Sys2Proof.Machine
end

