-- ==== Sys2Proof/Machine/CallReturn.lean ====
section
/-! DEFINITION. CALL and RET (spec/43_call_return.md). -/

namespace Sys2Proof.Machine

/-- The return address of a CALL at the pc of `s`: `pc + 2`, in 9 bits (43_call_return R150). -/
def State.returnAddr (s : State) : PcWord := s.pc + 2

/-- `FatalCallReturnRange(ret)` (43_call_return R150, 60_exceptions R201). -/
def callReturnRange (ret : PcWord) : Raise := ⟨.callReturnRange, ret⟩

/-- CALL (43_call_return R150): the return address is checked first; the target register is read after SP is decremented. -/
def execCall (r : Byte) (s : State) : Host.Outcome State Fault Refusal :=
  commit s do
    if s.returnAddr.toNat > 255 then throw (callReturnRange s.returnAddr)
    let s1 ← s.decSp.storeAtSp (s.returnAddr.setWidth 8)
    let target ← s1.readReg r
    return s1.goto target

/-- RET (43_call_return R151): `t <- MemRead(x[7], 1); x[7] <- (x[7] + 1) mod 256; pc <- t`. -/
def execRet (s : State) : Host.Outcome State Fault Refusal :=
  commit s do
    let t ← s.loadAtSp
    return s.incSp.goto t

end Sys2Proof.Machine
end

