-- ==== Sys2Proof/Machine/Jumps.lean ====
section
/-! DEFINITION. The jump family (spec/44_jumps.md). Whether a jump opcode is dispatched at all is the decoder's business
(`JUMP_FAMILY`, 30_encoding R63); the meaning is the one of a dispatched jump (log entry 7). -/

namespace Sys2Proof.Machine

/-- JMP (44_jumps R161): to `x[r]` always. -/
def execJmp (r : Byte) (s : State) : Host.Outcome State Fault Refusal :=
  commit s (jumpIf (condJmp s.flags) r s)

/-- JEQ (44_jumps R162): to `x[r]` if E. -/
def execJeq (r : Byte) (s : State) : Host.Outcome State Fault Refusal :=
  commit s (jumpIf (condJeq s.flags) r s)

/-- JNE (44_jumps R163): to `x[r]` if not E. -/
def execJne (r : Byte) (s : State) : Host.Outcome State Fault Refusal :=
  commit s (jumpIf (condJne s.flags) r s)

/-- JGT (44_jumps R164): to `x[r]` if G. -/
def execJgt (r : Byte) (s : State) : Host.Outcome State Fault Refusal :=
  commit s (jumpIf (condJgt s.flags) r s)

/-- JLT (44_jumps R165): to `x[r]` if L. -/
def execJlt (r : Byte) (s : State) : Host.Outcome State Fault Refusal :=
  commit s (jumpIf (condJlt s.flags) r s)

/-- JLE (44_jumps R166): to `x[r]` if L or E. -/
def execJle (r : Byte) (s : State) : Host.Outcome State Fault Refusal :=
  commit s (jumpIf (condJle s.flags) r s)

/-- JGE (44_jumps R167): to `x[r]` if G or E. -/
def execJge (r : Byte) (s : State) : Host.Outcome State Fault Refusal :=
  commit s (jumpIf (condJge s.flags) r s)

end Sys2Proof.Machine
end

