-- ==== Sys2Proof/Machine/LoadStack.lean ====
section
/-! DEFINITION. LDI, PUSH and POP (spec/42_load_stack.md), each in the order of its pseudocode (70_reset_and_hazards R237). -/

namespace Sys2Proof.Machine

/-- LDI (42_load_stack R140): `x[r] <- v; pc <- pc + 3`. -/
def execLdi (r imm : Byte) (s : State) : Host.Outcome State Fault Refusal :=
  commit s do
    let t ← s.writeReg r imm
    return t.advance 3

/-- PUSH (42_load_stack R141): SP is decremented first, and the register is read after that. -/
def execPush (r : Byte) (s : State) : Host.Outcome State Fault Refusal :=
  commit s do
    let s1 := s.decSp
    let v ← s1.readReg r
    let s2 ← s1.storeAtSp v
    return s2.advance 2

/-- POP (42_load_stack R142): the register is written first, and SP is incremented after that. -/
def execPop (r : Byte) (s : State) : Host.Outcome State Fault Refusal :=
  commit s do
    let v ← s.loadAtSp
    let s1 ← s.writeReg r v
    return s1.incSp.advance 2

end Sys2Proof.Machine
end

