-- ==== Sys2Proof/Machine/System.lean ====
section
/-! DEFINITION. HLT, PRN and NOP (spec/41_system.md). -/

namespace Sys2Proof.Machine

/-- HLT (41_system R130): `emit Halt; fsm <- HALTED`; the pc keeps the address of the HLT. -/
def execHlt (s : State) : Host.Outcome State Fault Refusal :=
  commit s (.ok ((s.emit .halt).setFsm .halted))

/-- PRN (41_system R131): `emit Print(x[r]); pc <- pc + 2`. -/
def execPrn (r : Byte) (s : State) : Host.Outcome State Fault Refusal :=
  commit s do
    let v ← s.readReg r
    return (s.emit (.print v)).advance 2

/-- NOP (41_system R132): `pc <- pc + 1`. -/
def execNop (s : State) : Host.Outcome State Fault Refusal :=
  commit s (.ok (s.advance 1))

end Sys2Proof.Machine
end

