-- ==== Sys2Proof/Machine/Unrecognised.lean ====
section
/-! DEFINITION. The rows of the opcode table that this hardware does not recognise: INT, IRET, LD, ST, PRA and every other byte.
Each of them stalls: the step changes nothing (spec/30_encoding.md R67, R68). -/

namespace Sys2Proof.Machine

/-- INT, 0x52: unrecognised, a stall (30_encoding R67; 92 D21). -/
def execInt (s : State) : Host.Outcome State Fault Refusal := stall s

/-- IRET, 0x13: unrecognised, a stall (30_encoding R67; 92 D21). -/
def execIret (s : State) : Host.Outcome State Fault Refusal := stall s

/-- LD, 0x83: unrecognised, a stall (30_encoding R67; 92 D21). -/
def execLd (s : State) : Host.Outcome State Fault Refusal := stall s

/-- ST, 0x84: unrecognised, a stall (30_encoding R67; 92 D21). -/
def execSt (s : State) : Host.Outcome State Fault Refusal := stall s

/-- PRA, 0x48: unrecognised, a stall (30_encoding R67; 92 D21). -/
def execPra (s : State) : Host.Outcome State Fault Refusal := stall s

/-- Any other byte: unrecognised, a stall (30_encoding R67). -/
def execAnyOtherByte (_ : Byte) (s : State) : Host.Outcome State Fault Refusal := stall s

end Sys2Proof.Machine
end

