-- ==== Sys2Proof/Machine/Step.lean ====
section
/-! DEFINITION. One step (spec/30_encoding.md R72 to R74), and the host's way to place an instruction where it is fetched. -/

namespace Sys2Proof.Machine

/-- One step: in RUNNING fetch, decode and execute one instruction, or stall; in HALTED and FAULTED do nothing (30_encoding
R72, R74; 70_reset_and_hazards R240). -/
def step (s : State) : Host.Outcome State Fault Refusal :=
  if s.stepEnabled then
    match fetch s with
    | .ok i => exec i s
    | .error r => .next (s.takeFault r)
  else .next s

/-- The state with an instruction's bytes stored at its pc, where the next step fetches (those that lie in memory). It stands
for the load from outside the machine, 70_reset_and_hazards R233 (log entry 8). -/
def State.withFetchWord (s : State) (nbits w : Nat) : State :=
  s.setMem (s.mem.writeBytes s.pc.toNat (tableBytes nbits w))

end Sys2Proof.Machine
end

