-- ==== Sys2Proof/Machine/HostInterface.lean ====
section
/-! DEFINITION. What the host can do to the core and what it sees of it (spec/00_scope.md R8; spec/70_reset_and_hazards.md R230
to R236; spec/60_exceptions.md R215). Steps are Sys2Proof.Machine.step; nothing here is part of one. -/

namespace Sys2Proof.Machine

/-! ### Inputs -/

/-- `rst` (70_reset_and_hazards R230): every piece of core state takes its reset value, from any FSM state; memory and the
configuration stay. -/
def State.applyReset (s : State) : State :=
  { State.reset with cfg := s.cfg, mem := s.mem }

/-- `host_load(addr, byte)` (00_scope R8): a loader's write, which happens only while `rst` is held, so the core is in its reset
state too (70_reset_and_hazards R232, R233). -/
def State.hostLoad (s : State) (addr value : Byte) : State :=
  s.applyReset.setMem (s.mem.write addr.toNat value)

/-- Power-on and load (70_reset_and_hazards R232, R233): zero memory, the reset state, byte `i` of the image in cell `i`. An
image has at most 256 bytes (R233). -/
def bootImage (c : Config) (image : List Byte) : State :=
  { State.reset with cfg := c, mem := Memory.writeBytes [] 0 image }

/-- What the host can do to the machine (70_reset_and_hazards R235). -/
inductive HostAction where
  | reset
  | load (addr value : Byte)
  | step
  deriving DecidableEq, Repr

/-- The machine after one action of the host. -/
def hostAct (a : HostAction) (s : State) : Host.Outcome State Fault Refusal :=
  match a with
  | .reset => .next s.applyReset
  | .load addr value => .next (s.hostLoad addr value)
  | .step => Sys2Proof.Machine.step s

/-! ### Outputs -/

/-- `halted` (00_scope R8). -/
def State.haltedOut (s : State) : Bool := s.fsm == .halted

/-- `faulted`, the error signal (00_scope R8, 60_exceptions R204). -/
def State.faultedOut (s : State) : Bool := s.fsm == .faulted

/-- The cause numbers of 60_exceptions R201. -/
def Cause.code : Cause → BitVec 3
  | .memRange => 1
  | .regIndex => 2
  | .divZero => 3
  | .unsupportedAlu => 4
  | .callReturnRange => 5

/-- `fault_cause`, 3 bits: 0 while there is no fault (60_exceptions R201). -/
def State.faultCauseOut (s : State) : BitVec 3 :=
  match s.fault with
  | some f => f.cause.code
  | none => 0

/-- `fault_pc`, 9 bits. The spec gives the wire no value while there is no fault, and the model gives none (log entry 9). -/
def State.faultPcOut (s : State) : Option PcWord := s.fault.map fun f => f.faultPc

/-- `fault_info`, 9 bits. No value while there is no fault (log entry 9). -/
def State.faultInfoOut (s : State) : Option PcWord := s.fault.map fun f => f.info

/-- How a run ends (70_reset_and_hazards R236 a, b); a state that is RUNNING has not ended. -/
inductive RunEnd where
  | normal
  | abnormal
  deriving DecidableEq, Repr

/-- Whether and how a run has ended in this state (70_reset_and_hazards R236). -/
def State.runEnd (s : State) : Option RunEnd :=
  match s.fsm with
  | .running => none
  | .halted => some .normal
  | .faulted => some .abnormal

/-! ### The diagnostic trace -/

/-- The values one line of the diagnostic trace shows: the pc, the three bytes starting there, the eight registers
(60_exceptions R215). It reads the state and changes nothing. A byte beyond memory has no value here: the spec refuses
claims about it (93 U7; log entry 10). The line's text is out of scope (00_scope R4 f). -/
def State.traceView (s : State) : PcWord × List (Option Byte) × Vector Byte 8 :=
  (s.pc, [0, 1, 2].map fun k => if s.pc.toNat + k < memSize then some (s.mem.read (s.pc.toNat + k)) else none, s.x)

end Sys2Proof.Machine
end

