-- ==== Sys2Proof/Safety.lean ====
section
/-! DEFINITION. The terms in which the claims about the machine are stated: the tables of spec/10_state.md R23 and
spec/20_memory.md R42, the shape of a rule for each instruction format, and the invariant of the machine. -/

namespace Sys2Proof.Machine

/-! ### Tables of the spec -/

/-- The column "writes" of 10_state R23: whether an instruction may write register `j` in the state `s`. -/
def writesReg (s : State) (j : Nat) : Instr → Prop
  | .add a _
  | .sub a _
  | .mul a _
  | .div a _
  | .mod a _
  | .and a _
  | .or a _
  | .xor a _
  | .shl a _
  | .shr a _ => j = a.toNat
  | .inc a b | .dec a b => s.cfg.incdecMode = .intended ∧ j = (if a ≠ 0 then a else b).toNat
  | .ldi r _ => j = r.toNat
  | .push _ | .call _ | .ret => j = 7
  | .pop r => j = r.toNat ∨ j = 7
  | .cmp _ _ | .not _ _ | .prn _ | .hlt | .nop => False
  | .jmp _ | .jeq _ | .jne _ | .jgt _ | .jlt _ | .jle _ | .jge _ => False
  | .int | .iret | .ld | .st | .pra | .anyOtherByte _ => False

/-- The address an instruction stores to: the new SP for PUSH and CALL, none for every other (20_memory R42). -/
def storeAddr (s : State) : Instr → Option Nat
  | .push _ | .call _ => some s.pushAddr.toNat
  | .add _ _ | .sub _ _ | .mul _ _ | .div _ _ | .mod _ _ | .and _ _ | .or _ _ | .xor _ _ | .shl _ _ | .shr _ _ => none
  | .inc _ _ | .dec _ _ | .cmp _ _ | .not _ _ | .ldi _ _ => none
  | .prn _ | .pop _ | .ret | .hlt | .nop => none
  | .jmp _ | .jeq _ | .jne _ | .jgt _ | .jlt _ | .jle _ | .jge _ => none
  | .int | .iret | .ld | .st | .pra | .anyOtherByte _ => none

/-- The instructions that read the flags: the conditional jumps (10_state R27). -/
def readsFlags : Instr → Bool
  | .jeq _ | .jne _ | .jgt _ | .jlt _ | .jle _ | .jge _ => true
  | .jmp _ | .prn _ | .push _ | .pop _ | .call _ | .ret | .hlt | .nop => false
  | .add _ _ | .sub _ _ | .mul _ _ | .div _ _ | .mod _ _ | .and _ _ | .or _ _ | .xor _ _ | .shl _ _ | .shr _ _ => false
  | .inc _ _ | .dec _ _ | .cmp _ _ | .not _ _ | .ldi _ _ => false
  | .int | .iret | .ld | .st | .pra | .anyOtherByte _ => false

/-! ### The shape of an instruction's rule -/

/-- Under the default `OPCODE_MAP` the instruction is encoded as exactly these bytes: the decoder reads it from them, with no
byte left over, and the encoder writes them (30_encoding R61, R63). -/
def EncodedAs (i : Instr) (bytes : List Byte) : Prop :=
  decode Config.default bytes = .ok (i, []) ∧ encode Config.default i = bytes

/-- Under the default `OPCODE_MAP`, with the opcode byte `op` of an instruction of `n` bytes at the pc and an operand byte of it
beyond memory, the step raises MEM_RANGE before any other effect. The first byte out of range is always at 256 (30_encoding
R73, 60_exceptions R202). -/
def OperandFetchFaults (op : Byte) (n : Nat) : Prop :=
  ∀ s : State, s.fsm = .running → s.cfg.opcodeMap = OpcodeMap.ls8 → s.cfg.jumpFamily = .present →
    s.pc.toNat < 256 → 256 < s.pc.toNat + n → s.mem.read s.pc.toNat = op →
    step s = .next { s with fsm := .faulted, fault := some ⟨.memRange, s.pc, 256⟩ }

/-- The instruction ends in fault entry from `s`: nothing but the record and the FSM changes (60_exceptions R203, R204). -/
def FaultsWith (i : Instr) (s : State) (cause : Cause) (info : Nat) : Prop :=
  exec i s = .next { s with fsm := .faulted, fault := some ⟨cause, s.pc, BitVec.ofNat 9 info⟩ }

/-- The rule of a two-register ALU instruction with opcode byte `op` that writes `f va vb` to `x[a]` (40_alu R100): its encoding, its
fault on the operand fetch, its completion on every pair of valid registers, with everything but `x[a]` and the pc unchanged, and its faults in order. -/
def BinaryRule (op : Byte) (mk : Byte → Byte → Instr) (f : Nat → Nat → Nat) : Prop :=
  (∀ a b, EncodedAs (mk a b) [op, a, b]) ∧
  OperandFetchFaults op 3 ∧
  (∀ s a b, ∀ (ha : a.toNat < 8) (hb : b.toNat < 8),
    exec (mk a b) s = .next { s with
      x := s.x.set a.toNat (BitVec.ofNat 8 (f s.x[a.toNat].toNat s.x[b.toNat].toNat))
      pc := s.pc + 3 }) ∧
  (∀ s a b, 8 ≤ a.toNat → FaultsWith (mk a b) s .regIndex a.toNat) ∧
  (∀ s a b, a.toNat < 8 → 8 ≤ b.toNat → FaultsWith (mk a b) s .regIndex b.toNat)

/-- The rule of DIV and MOD (40_alu R104, R105): as `BinaryRule` where the divisor is not 0, and DIV_ZERO where it is, after both
register checks. -/
def DivideRule (op : Byte) (mk : Byte → Byte → Instr) (f : Nat → Nat → Nat) : Prop :=
  (∀ a b, EncodedAs (mk a b) [op, a, b]) ∧
  OperandFetchFaults op 3 ∧
  (∀ s a b, ∀ (ha : a.toNat < 8) (hb : b.toNat < 8), s.x[b.toNat] ≠ 0 →
    exec (mk a b) s = .next { s with
      x := s.x.set a.toNat (BitVec.ofNat 8 (f s.x[a.toNat].toNat s.x[b.toNat].toNat))
      pc := s.pc + 3 }) ∧
  (∀ s a b, 8 ≤ a.toNat → FaultsWith (mk a b) s .regIndex a.toNat) ∧
  (∀ s a b, a.toNat < 8 → 8 ≤ b.toNat → FaultsWith (mk a b) s .regIndex b.toNat) ∧
  (∀ s a b, a.toNat < 8 → ∀ hb : b.toNat < 8, s.x[b.toNat] = 0 → FaultsWith (mk a b) s .divZero b.toNat)

/-- The rule of INC and DEC (40_alu R106, R107), where `t` is `a` if it is not 0, else `b`: under `intended` the register `t` is
updated by `f`, or `t` faults; under `reference_noop` only the pc moves, whatever the operands are. -/
def IncDecRule (op : Byte) (mk : Byte → Byte → Instr) (f : Nat → Nat) : Prop :=
  (∀ a b, EncodedAs (mk a b) [op, a, b]) ∧
  OperandFetchFaults op 3 ∧
  (∀ s a b t, t = (if a ≠ 0 then a else b) → s.cfg.incdecMode = .intended → ∀ ht : t.toNat < 8,
    exec (mk a b) s = .next { s with
      x := s.x.set t.toNat (BitVec.ofNat 8 (f s.x[t.toNat].toNat))
      pc := s.pc + 3 }) ∧
  (∀ s a b t, t = (if a ≠ 0 then a else b) → s.cfg.incdecMode = .intended → 8 ≤ t.toNat →
    FaultsWith (mk a b) s .regIndex t.toNat) ∧
  (∀ s a b, s.cfg.incdecMode = .referenceNoop → exec (mk a b) s = .next { s with pc := s.pc + 3 })

/-- The rule of a jump (44_jumps R160): to the register's value where the condition holds, else past the instruction, and a
fault on a register index above 7 whether or not it would be taken. Nothing but the pc changes. -/
def JumpRule (op : Byte) (mk : Byte → Instr) (cond : Flags → Bool) : Prop :=
  (∀ r, EncodedAs (mk r) [op, r]) ∧
  OperandFetchFaults op 2 ∧
  (∀ s r, ∀ hr : r.toNat < 8,
    exec (mk r) s = .next { s with
      pc := if cond s.flags then BitVec.ofNat 9 s.x[r.toNat].toNat else s.pc + 2 }) ∧
  (∀ s r, 8 ≤ r.toNat → FaultsWith (mk r) s .regIndex r.toNat)

/-! ### The invariant of the machine -/

/-- The values `info` can have, by cause (60_exceptions R201). -/
def infoLegal (c : Config) (f : FaultRecord) : Prop :=
  match f.cause with
  | .memRange => 256 ≤ f.info.toNat ∧ f.info.toNat ≤ 258
  | .regIndex => 8 ≤ f.info.toNat ∧ f.info.toNat ≤ 255
  | .divZero => f.info.toNat < 8
  | .unsupportedAlu => f.info.toNat = c.opcodeMap.not.toNat
  | .callReturnRange => f.info.toNat = 256 ∧ f.faultPc.toNat = 254

/-- What holds in every state the machine can be in. -/
structure Invariant (s : State) : Prop where
  /-- Memory keeps its canonical form. -/
  memCanonical : s.mem.wf = true
  /-- The pc never passes 258 (10_state R25; 00_scope R6). -/
  pcInRange : s.pc.toNat ≤ 258
  /-- A halted machine stands on its HLT, in memory (41_system R130). -/
  haltedInMemory : s.fsm = .halted → s.pc.toNat ≤ 255
  /-- At most one flag is true (10_state R27, 44_jumps R168). -/
  flagsExclusive : s.flags ∈ [(⟨false, false, false⟩ : Flags), ⟨true, false, false⟩, ⟨false, true, false⟩, ⟨false, false, true⟩]
  /-- There is a fault record exactly in FAULTED (10_state R31). -/
  recordWhenFaulted : s.fault.isSome = true ↔ s.fsm = .faulted
  /-- The record's pc is the pc, which fault entry leaves alone, and its info is one that R201 names (60_exceptions R203). -/
  recordLegal : ∀ f, s.fault = some f → f.faultPc = s.pc ∧ infoLegal s.cfg f
  /-- The output is `Print` events, and in HALTED one `Halt`, the last (10_state R32). -/
  haltIsLast : ∃ vs : List Byte, s.out = vs.map Event.print ++ (if s.fsm = .halted then [Event.halt] else [])

end Sys2Proof.Machine
end

