-- ==== Sys2Proof/Certificates/Slice0/Obligations.lean ====
section
/-! DEFINITION. The statements for the provers. Each docstring names the rule of spec/ it formalises or rests on. -/

open Sys2Proof Sys2Proof.Machine

/-- Decoding the encoding of a well-formed instruction gives it back (30_encoding.md R61, 30_encoding.md R63,
30_encoding.md R65). -/
def Obligations.DecodeEncodeRoundTrip : Prop :=
  ∀ (c : Config) (i : Instr) (rest : List Byte), c.opcodeMap.distinct = true → WellFormed c i = true →
    decode c (encode c i ++ rest) = .ok (i, rest)

/-- What the decoder reads is well-formed, and the bytes it read are its encoding (30_encoding.md R61, 30_encoding.md
R65, 30_encoding.md R69). -/
def Obligations.DecodedBytesAreTheEncoding : Prop :=
  ∀ (c : Config) (bs rest : List Byte) (i : Instr), decode c bs = .ok (i, rest) →
    WellFormed c i = true ∧ bs = encode c i ++ rest

/-- Byte sequences written out in the spec decode to the instructions they stand for (30_encoding.md R63,
95_test_vectors.md Part 1, Part 2); opcode bytes: the default map of R63, log entry 2. -/
def Obligations.SpecWordsDecode : Prop :=
  EncodedAs (.ldi 3 255) [0x82, 0x03, 0xFF] ∧ EncodedAs (.prn 3) [0x47, 0x03] ∧ EncodedAs .hlt [0x01] ∧
    EncodedAs (.push 2) [0x45, 0x02] ∧ EncodedAs (.div 0 1) [0xA3, 0x00, 0x01] ∧ EncodedAs (.inc 3 200) [0x65, 0x03, 0xC8] ∧
    EncodedAs (.call 1) [0x50, 0x01] ∧ EncodedAs (.jne 3) [0x56, 0x03] ∧ EncodedAs (.anyOtherByte 0xFF) [0xFF]

/-- The first byte alone fixes the class and the length, and every byte value has a class (30_encoding.md R60,
30_encoding.md R65, 30_encoding.md R66, 30_encoding.md R67, 30_encoding.md R73). -/
def Obligations.ClassFixesLength : Prop :=
  (∀ (c : Config) (op : Byte) (bs rest : List Byte) (i : Instr), decode c (op :: bs) = .ok (i, rest) →
      i.cls = c.classOf op ∧ (∀ n, i.length = some n → n + rest.length = 1 + bs.length) ∧
      (i.length = none → rest = bs)) ∧
    ∀ (c : Config) (op a b : Byte) (bs : List Byte), ∃ i rest, decode c (op :: a :: b :: bs) = .ok (i, rest)

/-- An unrecognised opcode stalls: the step changes nothing (R67). -/
def Obligations.UnrecognisedOpcodeStalls : Prop :=
  ∀ s : State, s.fsm = .running → s.pc.toNat < 256 → s.cfg.classOf (s.mem.read s.pc.toNat) = .unrecognised →
    step s = .next s

/-- INT, IRET, LD, ST, PRA and every other byte: encoded as one byte, and they change nothing (30_encoding.md R67,
30_encoding.md R68, 92_eei_decisions.md D21); opcode bytes: the default map of R63, log entry 2. -/
def Obligations.UnrecognisedInstructionsChangeNothing : Prop :=
  (EncodedAs .int [0x52] ∧ EncodedAs .iret [0x13] ∧ EncodedAs .ld [0x83] ∧ EncodedAs .st [0x84] ∧ EncodedAs .pra [0x48]) ∧
    (∀ op : Byte, WellFormed Config.default (.anyOtherByte op) = true → EncodedAs (.anyOtherByte op) [op]) ∧
    ∀ s : State, exec .int s = .next s ∧ exec .iret s = .next s ∧ exec .ld s = .next s ∧ exec .st s = .next s ∧
      exec .pra s = .next s ∧ ∀ op : Byte, exec (.anyOtherByte op) s = .next s

/-- A stall is permanent (70_reset_and_hazards.md R242, 30_encoding.md R67). -/
def Obligations.StallIsPermanent : Prop :=
  ∀ s : State, s.fsm = .running → s.pc.toNat < 256 → s.cfg.classOf (s.mem.read s.pc.toNat) = .unrecognised →
    ∀ n : Nat, core.run n s = .next s

/-- With JUMP_FAMILY = absent the seven jump opcodes stall (30_encoding.md R63, 30_encoding.md R67, 44_jumps.md
(header), 92_eei_decisions.md D5). -/
def Obligations.AbsentJumpFamilyStalls : Prop :=
  ∀ (s : State) (o : Opcode), s.fsm = .running → s.cfg.jumpFamily = .absent → s.cfg.opcodeMap.distinct = true →
    s.pc.toNat < 256 → o ∈ [Opcode.jmp, .jeq, .jne, .jgt, .jlt, .jle, .jge] →
    s.mem.read s.pc.toNat = s.cfg.opcodeMap.byte o → step s = .next s

/-- A step runs the decoded instruction (30_encoding.md R72). -/
def Obligations.StepRunsDecodedInstruction : Prop :=
  ∀ (s : State) (i : Instr) (rest : List Byte), s.fsm = .running →
    decode s.cfg (s.mem.bytesFrom s.pc.toNat 3) = .ok (i, rest) → step s = exec i s

/-- A step runs the well-formed instruction whose encoding lies in memory at the pc (20_memory.md R43, 30_encoding.md
R61, 30_encoding.md R72). -/
def Obligations.StepRunsStoredInstruction : Prop :=
  ∀ (s : State) (i : Instr), s.fsm = .running → s.cfg.opcodeMap.distinct = true → WellFormed s.cfg i = true →
    s.pc.toNat + (encode s.cfg i).length ≤ 256 →
    (∀ k b, (encode s.cfg i)[k]? = some b → s.mem.read (s.pc.toNat + k) = b) → step s = exec i s

/-- A fetch at a pc of 256 or more raises MEM_RANGE with that address (30_encoding.md R72, 20_memory.md R41,
10_state.md R25). -/
def Obligations.OpcodeFetchBeyondMemoryFaults : Prop :=
  ∀ s : State, s.fsm = .running → 256 ≤ s.pc.toNat →
    step s = .next { s with fsm := .faulted, fault := some ⟨.memRange, s.pc, s.pc⟩ }

/-- A missing operand byte raises MEM_RANGE with its address before any other effect (R73). -/
def Obligations.OperandFetchBeyondMemoryFaults : Prop :=
  ∀ (s : State) (n k : Nat), s.fsm = .running → s.pc.toNat < 256 →
    (s.cfg.classOf (s.mem.read s.pc.toNat)).length = some n → k < n → s.pc.toNat + k = 256 →
    step s = .next { s with fsm := .faulted, fault := some ⟨.memRange, s.pc, 256⟩ }

/-- In HALTED and FAULTED a step does nothing (R74). -/
def Obligations.StoppedMachineDoesNothing : Prop :=
  ∀ s : State, (s.fsm = .halted ∨ s.fsm = .faulted → step s = .next s) ∧ s.applyReset.fsm = .running

/-- Every instruction and every step answers a next state (70_reset_and_hazards.md R241, 30_encoding.md R65,
60_exceptions.md R204). -/
def Obligations.EveryStepAnswersNext : Prop :=
  (∀ (i : Instr) (s : State), ∃ t, exec i s = .next t) ∧ ∀ s : State, ∃ t, step s = .next t

/-- Every step keeps the invariant of the machine (10_state.md R25, 10_state.md R27, 10_state.md R29, 10_state.md R31,
10_state.md R32, 60_exceptions.md R201, 60_exceptions.md R203). -/
def Obligations.InvariantKeptByEveryStep : Prop :=
  ∀ s t : State, Invariant s → step s = .next t → Invariant t

/-- The invariant holds after power-on and after every reset of a machine with canonical memory (10_state.md R35,
70_reset_and_hazards.md R230). -/
def Obligations.InvariantHoldsAtReset : Prop :=
  Invariant State.reset ∧ ∀ s : State, s.mem.wf = true → Invariant s.applyReset

/-- The transitions of the control FSM (R29). -/
def Obligations.FsmTransitions : Prop :=
  State.reset.fsm = .running ∧
    (∀ s t : State, s.fsm ≠ .running → step s = .next t → t = s) ∧ (∀ s : State, s.applyReset.fsm = .running) ∧
    ∀ s t : State, s.fsm = .running → step s = .next t →
      (t.fsm = .halted ↔ fetch s = .ok .hlt) ∧
      (t.fsm = .faulted ↔ ∃ cause info, t = { s with fsm := .faulted, fault := some ⟨cause, s.pc, info⟩ })

/-- Faults are precise: every write of the faulting instruction is discarded (R204). -/
def Obligations.FaultsArePrecise : Prop :=
  (∀ (i : Instr) (s t : State), s.fsm ≠ .faulted → exec i s = .next t → t.fsm = .faulted →
      ∃ cause info, t = { s with fsm := .faulted, fault := some ⟨cause, s.pc, info⟩ }) ∧
    ∀ s t : State, s.fsm = .running → step s = .next t → t.fsm = .faulted →
      (∃ cause info, t = { s with fsm := .faulted, fault := some ⟨cause, s.pc, info⟩ }) ∧ ∀ n : Nat, core.run n t = .next t

/-- Only PRN and HLT emit events, and output only grows (10_state.md R32, 20_memory.md R40). -/
def Obligations.OutputChangesOnlyByPrnAndHlt : Prop :=
  ∀ (i : Instr) (s t : State), exec i s = .next t →
    t.out = s.out ∨
    (∃ r, ∃ hr : r.toNat < 8, i = .prn r ∧ t.out = s.out ++ [.print s.x[r.toNat]]) ∨
    (i = .hlt ∧ t.out = s.out ++ [.halt])

/-- No instruction, step or reset changes the configuration, the model's own field (log entry 1) (00_scope.md R6). -/
def Obligations.ConfigurationIsFixed : Prop :=
  (∀ (i : Instr) (s t : State), exec i s = .next t → t.cfg = s.cfg) ∧
    (∀ s t : State, step s = .next t → t.cfg = s.cfg) ∧ ∀ s : State, s.applyReset.cfg = s.cfg

/-- An instruction changes no register but those of its column "writes" in R23 (10_state.md R23). -/
def Obligations.RegistersOutsideDestinationsUnchanged : Prop :=
  ∀ (i : Instr) (s t : State), exec i s = .next t →
    ∀ (j : Nat) (hj : j < 8), ¬ writesReg s j i → t.x[j] = s.x[j]

/-- CMP is the only writer of the flags (10_state.md R27, 40_alu.md R100). -/
def Obligations.FlagsChangedOnlyByCmp : Prop :=
  (∀ (i : Instr) (s t : State), exec i s = .next t → (∀ a b, i ≠ .cmp a b) → t.flags = s.flags) ∧
    ∀ s t : State, step s = .next t → t.flags ≠ s.flags → ∃ a b, fetch s = .ok (.cmp a b)

/-- Every byte of memory but the one PUSH or CALL stores at the new SP is unchanged (20_memory.md R42, 20_memory.md
R45). -/
def Obligations.MemoryChangedOnlyAtStackStore : Prop :=
  ∀ (i : Instr) (s t : State), exec i s = .next t →
    ∀ a : Nat, storeAddr s i ≠ some a → t.mem.read a = s.mem.read a

/-- Only the conditional jumps read the flags (10_state.md R27). -/
def Obligations.FlagsReadOnlyByConditionalJumps : Prop :=
  ∀ (i : Instr) (s t : State) (f : Flags), readsFlags i = false → exec i s = .next t →
    ∃ g : Flags, exec i { s with flags := f } = .next { t with flags := g }

/-- With JUMP_FAMILY = absent a program cannot observe the flags (10_state.md R27, 44_jumps.md (header)). -/
def Obligations.AbsentJumpFamilyHidesFlags : Prop :=
  ∀ (n : Nat) (s t : State) (f : Flags), s.cfg.jumpFamily = .absent → core.run n s = .next t →
    ∃ g : Flags, core.run n { s with flags := f } = .next { t with flags := g }

/-- ADD: (va + vb) mod 256 (R101); opcode bytes: the default map of R63, log entry 2. -/
def Obligations.AddRule : Prop :=
  BinaryRule 0xA0 .add fun va vb => (va + vb) % 256

/-- SUB: (va + 256 - vb) mod 256 (R102); opcode bytes: the default map of R63, log entry 2. -/
def Obligations.SubRule : Prop :=
  BinaryRule 0xA1 .sub fun va vb => (va + 256 - vb) % 256

/-- MUL: (va * vb) mod 256 (R103); opcode bytes: the default map of R63, log entry 2. -/
def Obligations.MulRule : Prop :=
  BinaryRule 0xA2 .mul fun va vb => (va * vb) % 256

/-- DIV: va div vb, and a zero divisor faults (R104); opcode bytes: the default map of R63, log entry 2. -/
def Obligations.DivRule : Prop :=
  DivideRule 0xA3 .div fun va vb => va / vb

/-- MOD: va mod vb, and a zero divisor faults (R105); opcode bytes: the default map of R63, log entry 2. -/
def Obligations.ModRule : Prop :=
  DivideRule 0xA4 .mod fun va vb => va % vb

/-- INC: t is a if a is not 0, else b, and x[t] becomes (x[t] + 1) mod 256 (R106); opcode bytes: the default map of
R63, log entry 2. -/
def Obligations.IncRule : Prop :=
  IncDecRule 0x65 .inc fun v => (v + 1) % 256

/-- DEC: t is a if a is not 0, else b, and x[t] becomes (x[t] - 1) mod 256 (R107); opcode bytes: the default map of
R63, log entry 2. -/
def Obligations.DecRule : Prop :=
  IncDecRule 0x66 .dec fun v => (v + 255) % 256

/-- CMP writes E, L and G by an unsigned comparison, and no register (R108); opcode bytes: the default map of R63, log
entry 2. -/
def Obligations.CmpRule : Prop :=
  (∀ a b, EncodedAs (.cmp a b) [0xA7, a, b]) ∧ OperandFetchFaults 0xA7 3 ∧
    (∀ s a b, ∀ (ha : a.toNat < 8) (hb : b.toNat < 8), ∃ f : Flags,
      exec (.cmp a b) s = .next { s with flags := f, pc := s.pc + 3 } ∧
      (f.e = true ↔ s.x[a.toNat].toNat = s.x[b.toNat].toNat) ∧
      (f.l = true ↔ s.x[a.toNat].toNat < s.x[b.toNat].toNat) ∧
      (f.g = true ↔ s.x[a.toNat].toNat > s.x[b.toNat].toNat) ∧
      f ∈ [(⟨true, false, false⟩ : Flags), ⟨false, true, false⟩, ⟨false, false, true⟩]) ∧
    (∀ s a b, 8 ≤ a.toNat → FaultsWith (.cmp a b) s .regIndex a.toNat) ∧
    (∀ s a b, a.toNat < 8 → 8 ≤ b.toNat → FaultsWith (.cmp a b) s .regIndex b.toNat)

/-- AND: va & vb (R109); opcode bytes: the default map of R63, log entry 2. -/
def Obligations.AndRule : Prop :=
  BinaryRule 0xA8 .and fun va vb => va &&& vb

/-- OR: va | vb (R110); opcode bytes: the default map of R63, log entry 2. -/
def Obligations.OrRule : Prop :=
  BinaryRule 0xAA .or fun va vb => va ||| vb

/-- XOR: va ^ vb (R111); opcode bytes: the default map of R63, log entry 2. -/
def Obligations.XorRule : Prop :=
  BinaryRule 0xAB .xor fun va vb => va ^^^ vb

/-- SHL: (va << vb) mod 256, by the whole 8-bit amount (R112); opcode bytes: the default map of R63, log entry 2. -/
def Obligations.ShlRule : Prop :=
  BinaryRule 0xAC .shl fun va vb => (va * 2 ^ vb) % 256

/-- SHR: va >> vb, by the whole 8-bit amount (R113); opcode bytes: the default map of R63, log entry 2. -/
def Obligations.ShrRule : Prop :=
  BinaryRule 0xAD .shr fun va vb => va / 2 ^ vb

/-- NOT always raises UNSUPPORTED_ALU with its opcode byte (R114); opcode bytes: the default map of R63, log entry 2.
-/
def Obligations.NotRule : Prop :=
  (∀ a b, EncodedAs (.not a b) [0x69, a, b]) ∧ OperandFetchFaults 0x69 3 ∧
    (∀ s a b, FaultsWith (.not a b) s .unsupportedAlu s.cfg.opcodeMap.not.toNat) ∧
    ∀ s a b, s.cfg.opcodeMap = OpcodeMap.ls8 → FaultsWith (.not a b) s .unsupportedAlu 0x69

/-- The ALU results are the 8-bit machine operations (40_alu.md R115, 40_alu.md R100). -/
def Obligations.AluIsModularArithmetic : Prop :=
  ∀ (s : State) (a b : Byte) (ha : a.toNat < 8) (hb : b.toNat < 8),
    let result (v : Byte) : Host.Outcome State Fault Refusal := .next { s with x := s.x.set a.toNat v, pc := s.pc + 3 }
    let va := s.x[a.toNat]
    let vb := s.x[b.toNat]
    exec (.add a b) s = result (va + vb) ∧ exec (.sub a b) s = result (va - vb) ∧ exec (.mul a b) s = result (va * vb) ∧
    exec (.and a b) s = result (va &&& vb) ∧ exec (.or a b) s = result (va ||| vb) ∧ exec (.xor a b) s = result (va ^^^ vb) ∧
    exec (.shl a b) s = result (va <<< vb) ∧ exec (.shr a b) s = result (va >>> vb) ∧
    (vb ≠ 0 → exec (.div a b) s = result (va / vb) ∧ exec (.mod a b) s = result (va % vb))

/-- HLT emits Halt, halts, and keeps the pc (R130); opcode bytes: the default map of R63, log entry 2. -/
def Obligations.HltRule : Prop :=
  EncodedAs .hlt [0x01] ∧
    ∀ s : State, ∃ t, exec .hlt s = .next t ∧ t = { s with out := s.out ++ [.halt], fsm := .halted } ∧
      ∀ n : Nat, core.run n t = .next t

/-- PRN emits the value of its register (R131); opcode bytes: the default map of R63, log entry 2. -/
def Obligations.PrnRule : Prop :=
  (∀ r, EncodedAs (.prn r) [0x47, r]) ∧ OperandFetchFaults 0x47 2 ∧
    (∀ s r, ∀ hr : r.toNat < 8,
      exec (.prn r) s = .next { s with out := s.out ++ [.print s.x[r.toNat]], pc := s.pc + 2 }) ∧
    ∀ s r, 8 ≤ r.toNat → FaultsWith (.prn r) s .regIndex r.toNat

/-- NOP only advances the pc, and past 255 the next step faults (R132); opcode bytes: the default map of R63, log
entry 2. -/
def Obligations.NopRule : Prop :=
  EncodedAs .nop [0x00] ∧
    (∀ s : State, exec .nop s = .next { s with pc := s.pc + 1 }) ∧
    ∀ s : State, s.fsm = .running → s.pc = 255 → ∃ t, exec .nop s = .next t ∧ t.pc = 256 ∧
      step t = .next { t with fsm := .faulted, fault := some ⟨.memRange, 256, 256⟩ }

/-- LDI writes its literal, unextended, to any of the eight registers (R140); opcode bytes: the default map of R63,
log entry 2. -/
def Obligations.LdiRule : Prop :=
  (∀ r v, EncodedAs (.ldi r v) [0x82, r, v]) ∧ OperandFetchFaults 0x82 3 ∧
    (∀ s r v, ∀ hr : r.toNat < 8, exec (.ldi r v) s = .next { s with x := s.x.set r.toNat v, pc := s.pc + 3 }) ∧
    ∀ s r v, 8 ≤ r.toNat → FaultsWith (.ldi r v) s .regIndex r.toNat

/-- PUSH decrements SP, then stores the register, read after the decrement, at SP (R141); opcode bytes: the default
map of R63, log entry 2. -/
def Obligations.PushRule : Prop :=
  (∀ r, EncodedAs (.push r) [0x45, r]) ∧ OperandFetchFaults 0x45 2 ∧
    (∀ (s : State) (r sp : Byte), sp.toNat = (s.x[7].toNat + 255) % 256 → ∀ hr : r.toNat < 8, ∃ m : Memory,
      exec (.push r) s = .next { s with x := s.x.set 7 sp, mem := m, pc := s.pc + 2 } ∧
      m.read sp.toNat = (if r = 7 then sp else s.x[r.toNat]) ∧
      ∀ a, a ≠ sp.toNat → m.read a = s.mem.read a) ∧
    ∀ s r, 8 ≤ r.toNat → FaultsWith (.push r) s .regIndex r.toNat

/-- POP writes the byte at SP to the register, then increments SP (R142); opcode bytes: the default map of R63, log
entry 2. -/
def Obligations.PopRule : Prop :=
  (∀ r, EncodedAs (.pop r) [0x46, r]) ∧ OperandFetchFaults 0x46 2 ∧
    (∀ (s : State) (r sp : Byte), sp.toNat = (s.x[7].toNat + 1) % 256 → ∀ hr : r.toNat < 7,
      exec (.pop r) s =
        .next { s with x := (s.x.set r.toNat (s.mem.read s.x[7].toNat)).set 7 sp, pc := s.pc + 2 }) ∧
    (∀ (s : State) (sp : Byte), sp.toNat = ((s.mem.read s.x[7].toNat).toNat + 1) % 256 →
      exec (.pop 7) s = .next { s with x := s.x.set 7 sp, pc := s.pc + 2 }) ∧
    ∀ s r, 8 ≤ r.toNat → FaultsWith (.pop r) s .regIndex r.toNat

/-- PUSH r then POP r' moves the value and restores SP, for r and r' other than R7 (42_load_stack.md R142,
90_conflicts.md C11). -/
def Obligations.PushPopRoundTrip : Prop :=
  ∀ (s : State) (r r' : Byte) (hr : r.toNat < 7) (hr' : r'.toNat < 7), ∃ t u : State,
    exec (.push r) s = .next t ∧ exec (.pop r') t = .next u ∧
    u.x[r'.toNat] = s.x[r.toNat] ∧ u.x[7] = s.x[7] ∧ ∀ (j : Nat) (hj : j < 8), j ≠ r'.toNat → u.x[j] = s.x[j]

/-- CALL pushes pc + 2 and jumps to its register, read after the decrement of SP (R150); opcode bytes: the default map
of R63, log entry 2. -/
def Obligations.CallRule : Prop :=
  (∀ r, EncodedAs (.call r) [0x50, r]) ∧ OperandFetchFaults 0x50 2 ∧
    (∀ (s : State) (r sp : Byte), s.pc.toNat + 2 ≤ 255 → sp.toNat = (s.x[7].toNat + 255) % 256 → ∀ hr : r.toNat < 8,
      ∃ m : Memory, exec (.call r) s = .next { s with
          x := s.x.set 7 sp
          mem := m
          pc := BitVec.ofNat 9 (if r = 7 then sp else s.x[r.toNat]).toNat } ∧
        (m.read sp.toNat).toNat = s.pc.toNat + 2 ∧ ∀ a, a ≠ sp.toNat → m.read a = s.mem.read a) ∧
    (∀ s r, 255 < s.pc.toNat + 2 → s.pc.toNat + 2 < 512 → FaultsWith (.call r) s .callReturnRange (s.pc.toNat + 2)) ∧
    ∀ s r, s.pc.toNat + 2 ≤ 255 → 8 ≤ r.toNat → FaultsWith (.call r) s .regIndex r.toNat

/-- RET jumps to the byte at SP and increments SP (R151); opcode bytes: the default map of R63, log entry 2. -/
def Obligations.RetRule : Prop :=
  EncodedAs .ret [0x11] ∧
    ∀ (s : State) (sp : Byte), sp.toNat = (s.x[7].toNat + 1) % 256 →
      exec .ret s = .next { s with x := s.x.set 7 sp, pc := BitVec.ofNat 9 (s.mem.read s.x[7].toNat).toNat }

/-- RET resumes behind the CALL when SP and the return cell are as CALL left them (43_call_return.md R151,
43_call_return.md R150). -/
def Obligations.CallRetRoundTrip : Prop :=
  ∀ (s : State) (r : Byte), s.pc.toNat + 2 ≤ 255 → r.toNat < 8 → ∃ t : State, exec (.call r) s = .next t ∧
    ∀ u : State, u.x[7] = t.x[7] → u.mem.read t.x[7].toNat = t.mem.read t.x[7].toNat →
      ∃ v : State, exec .ret u = .next v ∧ v.pc = s.pc + 2 ∧ v.x[7] = s.x[7]

/-- JMP jumps to x[r] always (R161); opcode bytes: the default map of R63, log entry 2. -/
def Obligations.JmpRule : Prop :=
  JumpRule 0x54 .jmp fun _ => true

/-- JEQ jumps to x[r] if E (R162); opcode bytes: the default map of R63, log entry 2. -/
def Obligations.JeqRule : Prop :=
  JumpRule 0x55 .jeq fun f => f.e

/-- JNE jumps to x[r] if not E (R163); opcode bytes: the default map of R63, log entry 2. -/
def Obligations.JneRule : Prop :=
  JumpRule 0x56 .jne fun f => !f.e

/-- JGT jumps to x[r] if G (R164); opcode bytes: the default map of R63, log entry 2. -/
def Obligations.JgtRule : Prop :=
  JumpRule 0x57 .jgt fun f => f.g

/-- JLT jumps to x[r] if L (R165); opcode bytes: the default map of R63, log entry 2. -/
def Obligations.JltRule : Prop :=
  JumpRule 0x58 .jlt fun f => f.l

/-- JLE jumps to x[r] if L or E (R166); opcode bytes: the default map of R63, log entry 2. -/
def Obligations.JleRule : Prop :=
  JumpRule 0x59 .jle fun f => f.l || f.e

/-- JGE jumps to x[r] if G or E (R167); opcode bytes: the default map of R63, log entry 2. -/
def Obligations.JgeRule : Prop :=
  JumpRule 0x5A .jge fun f => f.g || f.e

/-- Reset restores every piece of core state and leaves memory alone (R230). -/
def Obligations.ResetRestoresCoreState : Prop :=
  (∀ s : State, s.applyReset.mem = s.mem) ∧ (∀ a, State.reset.mem.read a = 0) ∧
    ∀ t : State, (t = State.reset ∨ ∃ s : State, t = s.applyReset) →
      (∀ (j : Nat) (hj : j < 7), t.x[j] = 0) ∧ t.x[7] = 0xF4 ∧ t.pc = 0 ∧ t.flags = ⟨false, false, false⟩ ∧
      t.fsm = .running ∧ t.fault = none ∧ t.out = []

/-- After power-on and load, cell i holds byte i of the image, and the cells beyond it 0 (70_reset_and_hazards.md
R233, 70_reset_and_hazards.md R232, 20_memory.md R48). -/
def Obligations.BootImageIsInMemory : Prop :=
  ∀ (c : Config) (image : List Byte), image.length ≤ 256 →
    (bootImage c image).mem.wf = true ∧ (∀ i : Nat, (bootImage c image).mem.read i = image.getD i 0) ∧
    bootImage c image = { State.reset with cfg := c, mem := (bootImage c image).mem }
end

