-- ==== Sys2Proof/Laws/Decode.lean ====
section
/-! SUPPORT. What the opcode look-up answers, and when a decoder form answers. -/

namespace Sys2Proof

/-- The list of opcodes is complete. -/
theorem Opcode.mem_all (o : Opcode) : o ∈ Opcode.all := by cases o <;> decide

/-- Where the look-up answers, the decoder knows the opcode and the byte is its byte (30_encoding R65). -/
theorem Config.opcodeOf_some {c : Config} {op : Byte} {o : Opcode} (h : c.opcodeOf op = some o) :
    c.names o = true ∧ c.opcodeMap.byte o = op := by
  have := List.find?_some h
  simpa using this

/-- Where the look-up answers nothing, no opcode the decoder knows has that byte. -/
theorem Config.opcodeOf_none {c : Config} {op : Byte} :
    c.opcodeOf op = none ↔ ∀ o, c.names o = true → c.opcodeMap.byte o ≠ op := by
  simp only [Config.opcodeOf, List.find?_eq_none, Bool.and_eq_true, beq_iff_eq, not_and]
  exact ⟨fun h o => h o o.mem_all, fun h o _ => h o⟩

/-- With distinct bytes an opcode is the only one with its byte (30_encoding R65: the classes are disjoint). -/
theorem OpcodeMap.byte_inj {m : OpcodeMap} (hd : m.distinct = true) {o p : Opcode} (h : m.byte o = m.byte p) : o = p :=
  List.inj_on_of_nodup_map (of_decide_eq_true hd) o.mem_all p.mem_all h

/-- With distinct bytes the look-up finds each opcode it knows from its byte. -/
theorem Config.opcodeOf_byte {c : Config} (hd : c.opcodeMap.distinct = true) {o : Opcode} (hn : c.names o = true) :
    c.opcodeOf (c.opcodeMap.byte o) = some o := by
  cases h : c.opcodeOf (c.opcodeMap.byte o) with
  | none => exact absurd rfl (Config.opcodeOf_none.1 h o hn)
  | some p => rw [OpcodeMap.byte_inj hd (Config.opcodeOf_some h).2]

/-- A byte that stands for no opcode is well-formed as one (30_encoding R67). -/
theorem wellFormed_anyOtherByte {c : Config} {op : Byte} :
    WellFormed c (.anyOtherByte op) = true ↔ c.opcodeOf op = none := by
  rw [Config.opcodeOf_none]
  simp only [WellFormed, List.all_eq_true, Bool.not_eq_true', Bool.and_eq_false_iff]
  constructor
  · intro h o hn he
    rcases h o o.mem_all with h | h
    · simp [hn] at h
    · simp [he] at h
  · intro h o _
    cases hn : c.names o with
    | false => exact .inl rfl
    | true => exact .inr (by simpa using h o hn)

/-- Everything one operand byte can give. -/
theorem oneOperand_ok {mk : Byte → Instr} {bs rest : List Byte} {i : Instr} (h : oneOperand mk bs = .ok (i, rest)) :
    ∃ r, bs = r :: rest ∧ i = mk r := by
  cases bs with
  | nil => cases h
  | cons r t => cases h; exact ⟨r, rfl, rfl⟩

/-- Everything two operand bytes can give. -/
theorem twoOperands_ok {mk : Byte → Byte → Instr} {bs rest : List Byte} {i : Instr}
    (h : twoOperands mk bs = .ok (i, rest)) : ∃ a b, bs = a :: b :: rest ∧ i = mk a b := by
  match bs, h with
  | a :: b :: t, h => cases h; exact ⟨a, b, rfl, rfl⟩

/-- The decoder at an opcode it knows. -/
theorem decode_known {c : Config} {op : Byte} {o : Opcode} (h : c.opcodeOf op = some o) (rest : List Byte) :
    decode c (op :: rest) = decodeOperands o rest := by
  simp [decode, h]

/-- The decoder at a byte that stands for no opcode (30_encoding R67). -/
theorem decode_unknown {c : Config} {op : Byte} (h : c.opcodeOf op = none) (rest : List Byte) :
    decode c (op :: rest) = .ok (.anyOtherByte op, rest) := by
  simp [decode, h]

end Sys2Proof
end

