-- ==== Sys2Proof/Laws/Memory.lean ====
section
/-! SUPPORT. The laws of memory: a read after a write, and that every operation keeps the canonical form. -/

namespace Sys2Proof.Machine

@[simp] theorem Memory.read_nil (addr : Nat) : Memory.read [] addr = unlistedByte := rfl

theorem Memory.read_cons (a : Nat) (v : Byte) (m : Memory) (addr : Nat) :
    Memory.read ((a, v) :: m) addr = if a = addr then v else Memory.read m addr := rfl

/-- An address that no cell lists reads as the unlisted byte. -/
theorem Memory.read_of_not_listed {m : Memory} {addr : Nat} (h : ∀ c ∈ m, c.1 ≠ addr) :
    m.read addr = unlistedByte := by
  induction m with
  | nil => rfl
  | cons c m ih =>
    rw [Memory.read_cons, if_neg (h c List.mem_cons_self)]
    exact ih fun d hd => h d (List.mem_cons_of_mem _ hd)

theorem Memory.read_filter_other (m : Memory) {a addr : Nat} (h : addr ≠ a) :
    Memory.read (m.filter fun c => c.1 != a) addr = m.read addr := by
  induction m with
  | nil => rfl
  | cons c m ih =>
    obtain ⟨b, v⟩ := c
    by_cases hb : b = a
    · subst hb
      simp [Memory.read_cons, ih, Ne.symm h]
    · simp [Memory.read_cons, hb, ih]

theorem Memory.read_insertCell_self (m : Memory) (a : Nat) (v : Byte) : (Memory.insertCell a v m).read a = v := by
  induction m with
  | nil => simp [Memory.insertCell, Memory.read_cons]
  | cons c m ih =>
    obtain ⟨b, w⟩ := c
    by_cases hb : b < a
    · simp [Memory.insertCell, hb, Memory.read_cons, Nat.ne_of_lt hb, ih]
    · simp [Memory.insertCell, hb, Memory.read_cons]

theorem Memory.read_insertCell_other (m : Memory) {a addr : Nat} (v : Byte) (h : addr ≠ a) :
    (Memory.insertCell a v m).read addr = m.read addr := by
  induction m with
  | nil => simp [Memory.insertCell, Memory.read_cons, Ne.symm h]
  | cons c m ih =>
    obtain ⟨b, w⟩ := c
    by_cases hb : b < a
    · simp [Memory.insertCell, hb, Memory.read_cons, ih]
    · simp [Memory.insertCell, hb, Memory.read_cons, Ne.symm h]

/-- A read of the address just written gives the value written (20_memory R45, R49). -/
@[simp] theorem Memory.read_write_self (m : Memory) (a : Nat) (v : Byte) : (m.write a v).read a = v := by
  by_cases hv : v = unlistedByte
  · simp only [Memory.write, hv, if_true]
    exact Memory.read_of_not_listed (by simp)
  · simp [Memory.write, hv, Memory.read_insertCell_self]

/-- A write leaves every other address alone. -/
theorem Memory.read_write_other (m : Memory) {a addr : Nat} (v : Byte) (h : addr ≠ a) :
    (m.write a v).read addr = m.read addr := by
  by_cases hv : v = unlistedByte
  · simp [Memory.write, hv, Memory.read_filter_other m h]
  · simp [Memory.write, hv, Memory.read_insertCell_other _ v h, Memory.read_filter_other m h]

theorem Memory.read_write (m : Memory) (a addr : Nat) (v : Byte) :
    (m.write a v).read addr = if addr = a then v else m.read addr := by
  split
  · next h => rw [h, Memory.read_write_self]
  · next h => exact Memory.read_write_other m v h

/-- The canonical form, spelled out. -/
theorem Memory.wf_iff (m : Memory) :
    m.wf = true ↔ (m.map fun c => c.1).Pairwise (fun a b => a < b) ∧
      ∀ c ∈ m, c.1 < memSize ∧ c.2 ≠ unlistedByte := by
  simp [Memory.wf]

theorem Memory.mem_insertCell {a : Nat} {v : Byte} {m : Memory} {c : Host.Cell}
    (h : c ∈ Memory.insertCell a v m) : c = (a, v) ∨ c ∈ m := by
  induction m with
  | nil => simpa [Memory.insertCell] using h
  | cons d m ih =>
    obtain ⟨b, w⟩ := d
    by_cases hb : b < a
    · simp only [Memory.insertCell, hb, if_true, List.mem_cons] at h
      rcases h with h | h
      · exact .inr (h ▸ List.mem_cons_self)
      · exact (ih h).imp_right (List.mem_cons_of_mem _)
    · simpa [Memory.insertCell, hb] using h

/-- Putting an unlisted cell into a rising list keeps it rising. -/
theorem Memory.pairwise_insertCell {a : Nat} (v : Byte) {m : Memory}
    (hm : (m.map fun c => c.1).Pairwise (fun a b => a < b)) (ha : ∀ c ∈ m, c.1 ≠ a) :
    ((Memory.insertCell a v m).map fun c => c.1).Pairwise (fun a b => a < b) := by
  induction m with
  | nil => simp [Memory.insertCell]
  | cons d m ih =>
    obtain ⟨b, w⟩ := d
    simp only [List.map_cons, List.pairwise_cons] at hm
    have hne : b ≠ a := ha (b, w) List.mem_cons_self
    by_cases hb : b < a
    · simp only [Memory.insertCell, hb, if_true, List.map_cons, List.pairwise_cons]
      refine ⟨fun x hx => ?_, ih hm.2 fun c hc => ha c (List.mem_cons_of_mem _ hc)⟩
      obtain ⟨c, hc, rfl⟩ := List.mem_map.1 hx
      rcases Memory.mem_insertCell hc with rfl | hc
      · exact hb
      · exact hm.1 _ (List.mem_map_of_mem hc)
    · have hab : a < b := by omega
      simp only [Memory.insertCell, hb, if_false, List.map_cons, List.pairwise_cons, List.mem_cons]
      refine ⟨?_, hm.1, hm.2⟩
      rintro x (rfl | hx)
      · exact hab
      · exact Nat.lt_trans hab (hm.1 x hx)

/-- A write in the address space keeps the canonical form. -/
theorem Memory.write_wf {m : Memory} {a : Nat} (v : Byte) (ha : a < memSize) (hm : m.wf = true) :
    (m.write a v).wf = true := by
  rw [Memory.wf_iff] at hm ⊢
  have hp : ((m.filter fun c => c.1 != a).map fun c => c.1).Pairwise (fun a b => a < b) :=
    hm.1.sublist (List.Sublist.map _ List.filter_sublist)
  by_cases hv : v = unlistedByte
  · simp only [Memory.write, hv, if_true]
    exact ⟨hp, fun c hc => hm.2 c (List.mem_filter.1 hc).1⟩
  · simp only [Memory.write, hv, if_false]
    refine ⟨Memory.pairwise_insertCell v hp (by simp), fun c hc => ?_⟩
    rcases Memory.mem_insertCell hc with rfl | hc
    · exact ⟨ha, hv⟩
    · exact hm.2 c (List.mem_filter.1 hc).1

/-- What `memRead` does, both ways (20_memory R41). -/
theorem memRead_of_lt (m : Memory) {a : Nat} (h : a < memSize) : memRead m a = .ok (m.read a) := if_pos h

theorem memRead_of_ge (m : Memory) {a : Nat} (h : memSize ≤ a) : memRead m a = .error (memRange a) :=
  if_neg (by omega)

/-- A data address is a byte, so it is always in range (20_memory R41). -/
theorem byte_lt_memSize (b : Byte) : b.toNat < memSize := b.isLt

@[simp] theorem memRead_byte (m : Memory) (b : Byte) : memRead m b.toNat = .ok (m.read b.toNat) :=
  memRead_of_lt m (byte_lt_memSize b)

@[simp] theorem memWrite_byte (m : Memory) (b v : Byte) : memWrite m b.toNat v = .ok (m.write b.toNat v) :=
  if_pos (byte_lt_memSize b)

/-- Everything `memWrite` can do: the address is in range, and the memory is the written one. -/
theorem memWrite_ok {m m' : Memory} {a : Nat} {v : Byte} (h : memWrite m a v = .ok m') :
    a < memSize ∧ m' = m.write a v := by
  unfold memWrite at h
  split at h
  · next ha => exact ⟨ha, by injection h with h; exact h.symm⟩
  · cases h

/-- `memWrite` keeps the canonical form. -/
theorem memWrite_wf {m m' : Memory} {a : Nat} {v : Byte} (h : memWrite m a v = .ok m') (hm : m.wf = true) :
    m'.wf = true := by
  obtain ⟨ha, rfl⟩ := memWrite_ok h
  exact Memory.write_wf v ha hm

/-- Storing a list of bytes keeps the canonical form. -/
theorem Memory.writeBytes_wf (bs : List Byte) : ∀ {m : Memory} {a : Nat}, m.wf = true → (m.writeBytes a bs).wf = true := by
  induction bs with
  | nil => exact fun hm => hm
  | cons b bs ih =>
    intro m a hm
    unfold Memory.writeBytes
    split
    · next h => exact ih (memWrite_wf h hm)
    · exact hm

/-- The bytes an instruction is read from, at an address in range and at one out of range. -/
theorem Memory.bytesFrom_of_lt (m : Memory) {a : Nat} (n : Nat) (h : a < memSize) :
    m.bytesFrom a (n + 1) = m.read a :: m.bytesFrom (a + 1) n := by
  simp [Memory.bytesFrom, memRead_of_lt m h]

theorem Memory.bytesFrom_of_ge (m : Memory) {a : Nat} (n : Nat) (h : memSize ≤ a) : m.bytesFrom a n = [] := by
  cases n with
  | zero => rfl
  | succ n => simp [Memory.bytesFrom, memRead_of_ge m h]

end Sys2Proof.Machine
end

