-- ==== Sys2Proof/Laws/State.lean ====
section
/-! SUPPORT. What each field of the state is after each named update: one lemma per field per update. -/

namespace Sys2Proof.Machine

@[simp] theorem State.setMem_cfg (s : State) (v : Memory) : (s.setMem v).cfg = s.cfg := rfl
@[simp] theorem State.setMem_mem (s : State) (v : Memory) : (s.setMem v).mem = v := rfl
@[simp] theorem State.setMem_x (s : State) (v : Memory) : (s.setMem v).x = s.x := rfl
@[simp] theorem State.setMem_pc (s : State) (v : Memory) : (s.setMem v).pc = s.pc := rfl
@[simp] theorem State.setMem_flags (s : State) (v : Memory) : (s.setMem v).flags = s.flags := rfl
@[simp] theorem State.setMem_fsm (s : State) (v : Memory) : (s.setMem v).fsm = s.fsm := rfl
@[simp] theorem State.setMem_fault (s : State) (v : Memory) : (s.setMem v).fault = s.fault := rfl
@[simp] theorem State.setMem_out (s : State) (v : Memory) : (s.setMem v).out = s.out := rfl

@[simp] theorem State.setX_cfg (s : State) (v : Vector Byte 8) : (s.setX v).cfg = s.cfg := rfl
@[simp] theorem State.setX_mem (s : State) (v : Vector Byte 8) : (s.setX v).mem = s.mem := rfl
@[simp] theorem State.setX_x (s : State) (v : Vector Byte 8) : (s.setX v).x = v := rfl
@[simp] theorem State.setX_pc (s : State) (v : Vector Byte 8) : (s.setX v).pc = s.pc := rfl
@[simp] theorem State.setX_flags (s : State) (v : Vector Byte 8) : (s.setX v).flags = s.flags := rfl
@[simp] theorem State.setX_fsm (s : State) (v : Vector Byte 8) : (s.setX v).fsm = s.fsm := rfl
@[simp] theorem State.setX_fault (s : State) (v : Vector Byte 8) : (s.setX v).fault = s.fault := rfl
@[simp] theorem State.setX_out (s : State) (v : Vector Byte 8) : (s.setX v).out = s.out := rfl

@[simp] theorem State.setPc_cfg (s : State) (v : PcWord) : (s.setPc v).cfg = s.cfg := rfl
@[simp] theorem State.setPc_mem (s : State) (v : PcWord) : (s.setPc v).mem = s.mem := rfl
@[simp] theorem State.setPc_x (s : State) (v : PcWord) : (s.setPc v).x = s.x := rfl
@[simp] theorem State.setPc_pc (s : State) (v : PcWord) : (s.setPc v).pc = v := rfl
@[simp] theorem State.setPc_flags (s : State) (v : PcWord) : (s.setPc v).flags = s.flags := rfl
@[simp] theorem State.setPc_fsm (s : State) (v : PcWord) : (s.setPc v).fsm = s.fsm := rfl
@[simp] theorem State.setPc_fault (s : State) (v : PcWord) : (s.setPc v).fault = s.fault := rfl
@[simp] theorem State.setPc_out (s : State) (v : PcWord) : (s.setPc v).out = s.out := rfl

@[simp] theorem State.setFlags_cfg (s : State) (v : Flags) : (s.setFlags v).cfg = s.cfg := rfl
@[simp] theorem State.setFlags_mem (s : State) (v : Flags) : (s.setFlags v).mem = s.mem := rfl
@[simp] theorem State.setFlags_x (s : State) (v : Flags) : (s.setFlags v).x = s.x := rfl
@[simp] theorem State.setFlags_pc (s : State) (v : Flags) : (s.setFlags v).pc = s.pc := rfl
@[simp] theorem State.setFlags_flags (s : State) (v : Flags) : (s.setFlags v).flags = v := rfl
@[simp] theorem State.setFlags_fsm (s : State) (v : Flags) : (s.setFlags v).fsm = s.fsm := rfl
@[simp] theorem State.setFlags_fault (s : State) (v : Flags) : (s.setFlags v).fault = s.fault := rfl
@[simp] theorem State.setFlags_out (s : State) (v : Flags) : (s.setFlags v).out = s.out := rfl

@[simp] theorem State.setFsm_cfg (s : State) (v : Fsm) : (s.setFsm v).cfg = s.cfg := rfl
@[simp] theorem State.setFsm_mem (s : State) (v : Fsm) : (s.setFsm v).mem = s.mem := rfl
@[simp] theorem State.setFsm_x (s : State) (v : Fsm) : (s.setFsm v).x = s.x := rfl
@[simp] theorem State.setFsm_pc (s : State) (v : Fsm) : (s.setFsm v).pc = s.pc := rfl
@[simp] theorem State.setFsm_flags (s : State) (v : Fsm) : (s.setFsm v).flags = s.flags := rfl
@[simp] theorem State.setFsm_fsm (s : State) (v : Fsm) : (s.setFsm v).fsm = v := rfl
@[simp] theorem State.setFsm_fault (s : State) (v : Fsm) : (s.setFsm v).fault = s.fault := rfl
@[simp] theorem State.setFsm_out (s : State) (v : Fsm) : (s.setFsm v).out = s.out := rfl

@[simp] theorem State.setFault_cfg (s : State) (v : Option FaultRecord) : (s.setFault v).cfg = s.cfg := rfl
@[simp] theorem State.setFault_mem (s : State) (v : Option FaultRecord) : (s.setFault v).mem = s.mem := rfl
@[simp] theorem State.setFault_x (s : State) (v : Option FaultRecord) : (s.setFault v).x = s.x := rfl
@[simp] theorem State.setFault_pc (s : State) (v : Option FaultRecord) : (s.setFault v).pc = s.pc := rfl
@[simp] theorem State.setFault_flags (s : State) (v : Option FaultRecord) : (s.setFault v).flags = s.flags := rfl
@[simp] theorem State.setFault_fsm (s : State) (v : Option FaultRecord) : (s.setFault v).fsm = s.fsm := rfl
@[simp] theorem State.setFault_fault (s : State) (v : Option FaultRecord) : (s.setFault v).fault = v := rfl
@[simp] theorem State.setFault_out (s : State) (v : Option FaultRecord) : (s.setFault v).out = s.out := rfl

@[simp] theorem State.setOut_cfg (s : State) (v : List Event) : (s.setOut v).cfg = s.cfg := rfl
@[simp] theorem State.setOut_mem (s : State) (v : List Event) : (s.setOut v).mem = s.mem := rfl
@[simp] theorem State.setOut_x (s : State) (v : List Event) : (s.setOut v).x = s.x := rfl
@[simp] theorem State.setOut_pc (s : State) (v : List Event) : (s.setOut v).pc = s.pc := rfl
@[simp] theorem State.setOut_flags (s : State) (v : List Event) : (s.setOut v).flags = s.flags := rfl
@[simp] theorem State.setOut_fsm (s : State) (v : List Event) : (s.setOut v).fsm = s.fsm := rfl
@[simp] theorem State.setOut_fault (s : State) (v : List Event) : (s.setOut v).fault = s.fault := rfl
@[simp] theorem State.setOut_out (s : State) (v : List Event) : (s.setOut v).out = v := rfl

end Sys2Proof.Machine
end

