-- ==== Sys2Proof/Laws/Ops.lean ====
section
/-! SUPPORT. One lemma per named operation, saying what it answers. -/

namespace Sys2Proof.Machine

/-! ### Registers -/

theorem State.readReg_of_lt (s : State) {i : Byte} (h : i.toNat < 8) : s.readReg i = .ok s.x[i.toNat] := dif_pos h

theorem State.readReg_of_ge (s : State) {i : Byte} (h : 8 ≤ i.toNat) : s.readReg i = .error (regIndex i) :=
  dif_neg (by omega)

theorem State.writeReg_of_lt (s : State) {i : Byte} (v : Byte) (h : i.toNat < 8) :
    s.writeReg i v = .ok (s.setX (s.x.set i.toNat v)) := dif_pos h

theorem State.writeReg_of_ge (s : State) {i : Byte} (v : Byte) (h : 8 ≤ i.toNat) :
    s.writeReg i v = .error (regIndex i) := dif_neg (by omega)

/-- Everything `readReg` can answer. -/
theorem State.readReg_cases (s : State) (i : Byte) :
    (∃ h : i.toNat < 8, s.readReg i = .ok s.x[i.toNat]) ∨ (8 ≤ i.toNat ∧ s.readReg i = .error (regIndex i)) := by
  by_cases h : i.toNat < 8
  · exact .inl ⟨h, s.readReg_of_lt h⟩
  · exact .inr ⟨by omega, s.readReg_of_ge (by omega)⟩

/-- Everything `writeReg` can answer. -/
theorem State.writeReg_cases (s : State) (i v : Byte) :
    (∃ h : i.toNat < 8, s.writeReg i v = .ok (s.setX (s.x.set i.toNat v))) ∨
      (8 ≤ i.toNat ∧ s.writeReg i v = .error (regIndex i)) := by
  by_cases h : i.toNat < 8
  · exact .inl ⟨h, s.writeReg_of_lt v h⟩
  · exact .inr ⟨by omega, s.writeReg_of_ge v (by omega)⟩

/-- A byte widened to 9 bits is the number it holds (00_scope R10). -/
theorem byte_setWidth (b : Byte) : b.setWidth 9 = BitVec.ofNat 9 b.toNat :=
  BitVec.eq_of_toNat_eq (by simp)

/-- The info of REG_INDEX, as the number the operand byte holds. -/
theorem regIndex_eq (i : Byte) : regIndex i = ⟨.regIndex, BitVec.ofNat 9 i.toNat⟩ := by
  rw [regIndex, byte_setWidth]

/-! ### The stack cell -/

theorem State.setSp_eq (s : State) (v : Byte) : s.setSp v = s.setX (s.x.set 7 v) := rfl

@[simp] theorem State.setSp_sp (s : State) (v : Byte) : (s.setSp v).sp = v := by simp [State.setSp, State.sp]

@[simp] theorem State.decSp_sp (s : State) : s.decSp.sp = s.pushAddr := s.setSp_sp _

@[simp] theorem State.loadAtSp_eq (s : State) : s.loadAtSp = .ok (s.mem.read s.sp.toNat) := memRead_byte _ _

@[simp] theorem State.storeAtSp_eq (s : State) (v : Byte) :
    s.storeAtSp v = .ok (s.setMem (s.mem.write s.sp.toNat v)) := by
  simp [State.storeAtSp, bind, Except.bind, pure, Except.pure]

/-! ### Faults -/

@[simp] theorem commit_ok (s t : State) : commit s (.ok t) = .next t := rfl

@[simp] theorem commit_error (s : State) (r : Raise) : commit s (.error r) = .next (s.takeFault r) := rfl

/-- Everything the end of an instruction can answer: its result, or the fault entry with every write dropped. -/
theorem commit_next {s t : State} {m : Except Raise State} (h : commit s m = .next t) :
    m = .ok t ∨ ∃ r, m = .error r ∧ t = s.takeFault r := by
  cases m with
  | ok u => injection h with h; exact .inl (h ▸ rfl)
  | error r => injection h with h; exact .inr ⟨r, rfl, h.symm⟩

/-- Fault entry changes the record and the FSM, and nothing else. -/
theorem State.takeFault_eq (s : State) (r : Raise) :
    s.takeFault r = { s with fsm := .faulted, fault := some ⟨r.cause, s.pc, r.info⟩ } := rfl

/-! ### Fetch -/

/-- Out of the address space there is no opcode byte. -/
theorem fetch_of_ge {s : State} (h : memSize ≤ s.pc.toNat) : fetch s = .error (memRange s.pc.toNat) := by
  simp [fetch, Memory.bytesFrom_of_ge _ _ h, decode, DecodeError.offset]

/-- Everything a fetch can answer: the decoded instruction, or the address of its first byte that is out of range. -/
theorem fetch_cases (s : State) :
    (∃ i rest, decode s.cfg (s.mem.bytesFrom s.pc.toNat 3) = .ok (i, rest) ∧ fetch s = .ok i) ∨
      ∃ e, decode s.cfg (s.mem.bytesFrom s.pc.toNat 3) = .error e ∧
        fetch s = .error (memRange (s.pc.toNat + e.offset)) := by
  rcases h : decode s.cfg (s.mem.bytesFrom s.pc.toNat 3) with e | ⟨i, rest⟩
  · exact .inr ⟨e, rfl, by simp [fetch, h]⟩
  · exact .inl ⟨i, rest, rfl, by simp [fetch, h]⟩

end Sys2Proof.Machine
end

