-- ==== Sys2Proof/Laws/Operands.lean ====
section
/-! SUPPORT. One lemma per operand form, saying everything it can answer. -/

namespace Sys2Proof.Machine

theorem readPair_of_lt (s : State) {a b : Byte} (ha : a.toNat < 8) (hb : b.toNat < 8) :
    readPair s a b = .ok (s.x[a.toNat], s.x[b.toNat]) := by
  simp [readPair, s.readReg_of_lt ha, s.readReg_of_lt hb, bind, Except.bind, pure, Except.pure]

/-- The first register is checked first (60_exceptions R202). -/
theorem readPair_first_ge (s : State) {a : Byte} (b : Byte) (ha : 8 ≤ a.toNat) :
    readPair s a b = .error (regIndex a) := by
  simp [readPair, s.readReg_of_ge ha, bind, Except.bind]

theorem readPair_second_ge (s : State) {a b : Byte} (ha : a.toNat < 8) (hb : 8 ≤ b.toNat) :
    readPair s a b = .error (regIndex b) := by
  simp [readPair, s.readReg_of_lt ha, s.readReg_of_ge hb, bind, Except.bind]

/-- Everything `readPair` can answer. -/
theorem readPair_cases (s : State) (a b : Byte) :
    (∃ (ha : a.toNat < 8) (hb : b.toNat < 8), readPair s a b = .ok (s.x[a.toNat], s.x[b.toNat])) ∨
      ∃ i, readPair s a b = .error (regIndex i) ∧ 8 ≤ i.toNat := by
  by_cases ha : a.toNat < 8
  · by_cases hb : b.toNat < 8
    · exact .inl ⟨ha, hb, readPair_of_lt s ha hb⟩
    · exact .inr ⟨b, readPair_second_ge s ha (by omega), by omega⟩
  · exact .inr ⟨a, readPair_first_ge s b (by omega), by omega⟩

/-- The state an ALU instruction leaves when it writes `v` to register `a` (40_alu R100). -/
def aluResult (s : State) (a : Nat) (h : a < 8) (v : Byte) : State := (s.setX (s.x.set a v h)).advance 3

theorem aluBinary_of_lt (f : Nat → Nat → Nat) (s : State) {a b : Byte} (ha : a.toNat < 8) (hb : b.toNat < 8) :
    aluBinary f a b s = .ok (aluResult s a.toNat ha (trunc8 (f s.x[a.toNat].toNat s.x[b.toNat].toNat))) := by
  simp [aluBinary, readPair_of_lt s ha hb, s.writeReg_of_lt _ ha, bind, Except.bind, pure, Except.pure, aluResult]

theorem aluBinary_error (f : Nat → Nat → Nat) (s : State) {a b : Byte} {r : Raise} (h : readPair s a b = .error r) :
    aluBinary f a b s = .error r := by
  simp [aluBinary, h, bind, Except.bind]

/-- Everything a two-register operation can answer. -/
theorem aluBinary_cases (f : Nat → Nat → Nat) (s : State) (a b : Byte) :
    (∃ (ha : a.toNat < 8) (hb : b.toNat < 8), aluBinary f a b s =
        .ok (aluResult s a.toNat ha (trunc8 (f s.x[a.toNat].toNat s.x[b.toNat].toNat)))) ∨
      ∃ i, aluBinary f a b s = .error (regIndex i) ∧ 8 ≤ i.toNat := by
  rcases readPair_cases s a b with ⟨ha, hb, _⟩ | ⟨i, h, hi⟩
  · exact .inl ⟨ha, hb, aluBinary_of_lt f s ha hb⟩
  · exact .inr ⟨i, aluBinary_error f s h, hi⟩

theorem aluDivide_of_ne (f : Nat → Nat → Nat) (s : State) {a b : Byte} (ha : a.toNat < 8) (hb : b.toNat < 8)
    (h0 : s.x[b.toNat] ≠ 0) :
    aluDivide f a b s = .ok (aluResult s a.toNat ha (trunc8 (f s.x[a.toNat].toNat s.x[b.toNat].toNat))) := by
  simpa [aluDivide, readPair_of_lt s ha hb, s.writeReg_of_lt _ ha, bind, Except.bind, pure, Except.pure, aluResult] using h0

theorem aluDivide_of_zero (f : Nat → Nat → Nat) (s : State) {a b : Byte} (ha : a.toNat < 8) (hb : b.toNat < 8)
    (h0 : s.x[b.toNat] = 0) : aluDivide f a b s = .error (divZero b) := by
  simp [aluDivide, readPair_of_lt s ha hb, h0, bind, Except.bind, throw, throwThe, MonadExceptOf.throw]

theorem aluDivide_error (f : Nat → Nat → Nat) (s : State) {a b : Byte} {r : Raise} (h : readPair s a b = .error r) :
    aluDivide f a b s = .error r := by
  simp [aluDivide, h, bind, Except.bind]

/-- Everything a division can answer. -/
theorem aluDivide_cases (f : Nat → Nat → Nat) (s : State) (a b : Byte) :
    (∃ (ha : a.toNat < 8) (hb : b.toNat < 8), s.x[b.toNat] ≠ 0 ∧ aluDivide f a b s =
        .ok (aluResult s a.toNat ha (trunc8 (f s.x[a.toNat].toNat s.x[b.toNat].toNat)))) ∨
      (b.toNat < 8 ∧ aluDivide f a b s = .error (divZero b)) ∨
      ∃ i, aluDivide f a b s = .error (regIndex i) ∧ 8 ≤ i.toNat := by
  rcases readPair_cases s a b with ⟨ha, hb, _⟩ | ⟨i, h, hi⟩
  · by_cases h0 : s.x[b.toNat] = 0
    · exact .inr (.inl ⟨hb, aluDivide_of_zero f s ha hb h0⟩)
    · exact .inl ⟨ha, hb, h0, aluDivide_of_ne f s ha hb h0⟩
  · exact .inr (.inr ⟨i, aluDivide_error f s h, hi⟩)

theorem aluIncDec_noop (f : Nat → Nat) (s : State) (a b : Byte) (hm : s.cfg.incdecMode = .referenceNoop) :
    aluIncDec f a b s = .ok (s.advance 3) := by
  simp [aluIncDec, hm]

theorem aluIncDec_of_lt (f : Nat → Nat) (s : State) {a b : Byte} (hm : s.cfg.incdecMode = .intended)
    (ht : (incDecTarget a b).toNat < 8) :
    aluIncDec f a b s = .ok (aluResult s (incDecTarget a b).toNat ht (trunc8 (f s.x[(incDecTarget a b).toNat].toNat))) := by
  simp [aluIncDec, hm, s.readReg_of_lt ht, s.writeReg_of_lt _ ht, bind, Except.bind, pure, Except.pure, aluResult]

theorem aluIncDec_of_ge (f : Nat → Nat) (s : State) {a b : Byte} (hm : s.cfg.incdecMode = .intended)
    (ht : 8 ≤ (incDecTarget a b).toNat) : aluIncDec f a b s = .error (regIndex (incDecTarget a b)) := by
  simp [aluIncDec, hm, s.readReg_of_ge ht, bind, Except.bind]

/-- Everything the form of INC and DEC can answer. -/
theorem aluIncDec_cases (f : Nat → Nat) (s : State) (a b : Byte) :
    (s.cfg.incdecMode = .referenceNoop ∧ aluIncDec f a b s = .ok (s.advance 3)) ∨
      (s.cfg.incdecMode = .intended ∧ ∃ ht : (incDecTarget a b).toNat < 8, aluIncDec f a b s =
        .ok (aluResult s (incDecTarget a b).toNat ht (trunc8 (f s.x[(incDecTarget a b).toNat].toNat)))) ∨
      (8 ≤ (incDecTarget a b).toNat ∧ aluIncDec f a b s = .error (regIndex (incDecTarget a b))) := by
  cases hm : s.cfg.incdecMode with
  | referenceNoop => exact .inl ⟨rfl, aluIncDec_noop f s a b hm⟩
  | intended =>
    by_cases ht : (incDecTarget a b).toNat < 8
    · exact .inr (.inl ⟨rfl, ht, aluIncDec_of_lt f s hm ht⟩)
    · exact .inr (.inr ⟨by omega, aluIncDec_of_ge f s hm (by omega)⟩)

theorem jumpIf_of_lt (taken : Bool) (s : State) {r : Byte} (hr : r.toNat < 8) :
    jumpIf taken r s = .ok (if taken then s.goto s.x[r.toNat] else s.advance 2) := by
  simp [jumpIf, s.readReg_of_lt hr, bind, Except.bind, pure, Except.pure]

theorem jumpIf_of_ge (taken : Bool) (s : State) {r : Byte} (hr : 8 ≤ r.toNat) :
    jumpIf taken r s = .error (regIndex r) := by
  simp [jumpIf, s.readReg_of_ge hr, bind, Except.bind]

/-- Everything a jump can answer. -/
theorem jumpIf_cases (taken : Bool) (s : State) (r : Byte) :
    (∃ hr : r.toNat < 8, jumpIf taken r s = .ok (if taken then s.goto s.x[r.toNat] else s.advance 2)) ∨
      (8 ≤ r.toNat ∧ jumpIf taken r s = .error (regIndex r)) := by
  by_cases hr : r.toNat < 8
  · exact .inl ⟨hr, jumpIf_of_lt taken s hr⟩
  · exact .inr ⟨by omega, jumpIf_of_ge taken s (by omega)⟩

/-- Exactly one flag is true after a comparison (40_alu R108). -/
theorem compareFlags_cases (va vb : Byte) :
    compareFlags va vb = ⟨true, false, false⟩ ∨ compareFlags va vb = ⟨false, true, false⟩ ∨
      compareFlags va vb = ⟨false, false, true⟩ := by
  rcases Nat.lt_trichotomy va.toNat vb.toNat with h | h | h
  · exact .inr (.inl (by simp [compareFlags, h, Nat.ne_of_lt h, Nat.lt_asymm h]))
  · exact .inl (by simp [compareFlags, h])
  · exact .inr (.inr (by simp [compareFlags, h, Nat.ne_of_gt h, Nat.lt_asymm h]))

end Sys2Proof.Machine
end

