-- ==== Sys2Proof/Laws/PerInstr.lean ====
section
/-! SUPPORT. Statements about all instructions, one lemma per constructor. The family EncodeLength: the encoder writes exactly as
many bytes as the instruction's length, and the opcode byte alone for an unrecognised one (30_encoding R60, R61, R67). -/

namespace Sys2Proof.Laws.EncodeLength

/-- The number of bytes the encoder writes is the length of the instruction's class. -/
def Statement (i : Instr) : Prop :=
  ∀ c : Config, (encode c i).length = i.length.getD 1

theorem nop : Statement .nop := fun _ => rfl
theorem hlt : Statement .hlt := fun _ => rfl
theorem ret : Statement .ret := fun _ => rfl
theorem push (r : Byte) : Statement (.push r) := fun _ => rfl
theorem pop (r : Byte) : Statement (.pop r) := fun _ => rfl
theorem prn (r : Byte) : Statement (.prn r) := fun _ => rfl
theorem call (r : Byte) : Statement (.call r) := fun _ => rfl
theorem jmp (r : Byte) : Statement (.jmp r) := fun _ => rfl
theorem jeq (r : Byte) : Statement (.jeq r) := fun _ => rfl
theorem jne (r : Byte) : Statement (.jne r) := fun _ => rfl
theorem jgt (r : Byte) : Statement (.jgt r) := fun _ => rfl
theorem jlt (r : Byte) : Statement (.jlt r) := fun _ => rfl
theorem jle (r : Byte) : Statement (.jle r) := fun _ => rfl
theorem jge (r : Byte) : Statement (.jge r) := fun _ => rfl
theorem inc (a b : Byte) : Statement (.inc a b) := fun _ => rfl
theorem dec (a b : Byte) : Statement (.dec a b) := fun _ => rfl
theorem not (a b : Byte) : Statement (.not a b) := fun _ => rfl
theorem ldi (r imm : Byte) : Statement (.ldi r imm) := fun _ => rfl
theorem add (a b : Byte) : Statement (.add a b) := fun _ => rfl
theorem sub (a b : Byte) : Statement (.sub a b) := fun _ => rfl
theorem mul (a b : Byte) : Statement (.mul a b) := fun _ => rfl
theorem div (a b : Byte) : Statement (.div a b) := fun _ => rfl
theorem mod (a b : Byte) : Statement (.mod a b) := fun _ => rfl
theorem cmp (a b : Byte) : Statement (.cmp a b) := fun _ => rfl
theorem and (a b : Byte) : Statement (.and a b) := fun _ => rfl
theorem or (a b : Byte) : Statement (.or a b) := fun _ => rfl
theorem xor (a b : Byte) : Statement (.xor a b) := fun _ => rfl
theorem shl (a b : Byte) : Statement (.shl a b) := fun _ => rfl
theorem shr (a b : Byte) : Statement (.shr a b) := fun _ => rfl
theorem int : Statement .int := fun _ => rfl
theorem iret : Statement .iret := fun _ => rfl
theorem ld : Statement .ld := fun _ => rfl
theorem st : Statement .st := fun _ => rfl
theorem pra : Statement .pra := fun _ => rfl
theorem anyOtherByte (op : Byte) : Statement (.anyOtherByte op) := fun _ => rfl

end Sys2Proof.Laws.EncodeLength
end

