-- ==== Sys2Proof/Laws/Step.lean ====
section
/-! SUPPORT. What a step and a run can do, said once. -/

namespace Sys2Proof.Machine

/-- In RUNNING, a step executes what the fetch gave. -/
theorem step_of_fetch {s : State} {i : Instr} (hr : s.fsm = .running) (hf : fetch s = .ok i) : step s = exec i s := by
  simp [step, State.stepEnabled, hr, hf]

/-- In RUNNING, a fetch that raises ends the step in fault entry. -/
theorem step_of_fetch_error {s : State} {r : Raise} (hr : s.fsm = .running) (hf : fetch s = .error r) :
    step s = .next (s.takeFault r) := by
  simp [step, State.stepEnabled, hr, hf]

/-- Everything a step can do: nothing outside RUNNING; in RUNNING the fetched instruction, or fault entry from the fetch. -/
theorem step_cases (s : State) :
    (s.fsm ≠ .running ∧ step s = .next s) ∨
      (s.fsm = .running ∧ ∃ i, fetch s = .ok i ∧ step s = exec i s) ∨
      (s.fsm = .running ∧ ∃ r, fetch s = .error r ∧ step s = .next (s.takeFault r)) := by
  by_cases hr : s.fsm = .running
  · cases hf : fetch s with
    | ok i => exact .inr (.inl ⟨hr, i, rfl, step_of_fetch hr hf⟩)
    | error r => exact .inr (.inr ⟨hr, r, rfl, step_of_fetch_error hr hf⟩)
  · exact .inl ⟨hr, by simp [step, State.stepEnabled, hr]⟩

/-- A run whose first step answers a next state goes on from it. -/
theorem run_succ {s t : State} (h : step s = .next t) (n : Nat) : core.run (n + 1) s = core.run n t := by
  have h' : core.step s = .next t := h
  simp [Host.Core.run, h']

end Sys2Proof.Machine
end

