-- ==== Sys2Proof/Machine/Assembler.lean ====
section
/-! DEFINITION. How the spec writes an instruction (spec/30_encoding.md R70). Only the writing: the loader's text format (R71) is
outside the core, and the source has no labels, directives or pseudo-instructions. -/

namespace Sys2Proof.Machine

/-- `Rn`, by the number in the operand byte (30_encoding R70). -/
def regName (r : Byte) : String := "R" ++ toString r.toNat

/-- The assembler form of an instruction, the literal in decimal, INC and DEC with both operands (30_encoding R70). A byte the
hardware does not recognise has no form. -/
def asm : Instr → Option String
  | .nop => some "NOP"
  | .hlt => some "HLT"
  | .ret => some "RET"
  | .push r => some ("PUSH " ++ regName r)
  | .pop r => some ("POP " ++ regName r)
  | .prn r => some ("PRN " ++ regName r)
  | .call r => some ("CALL " ++ regName r)
  | .jmp r => some ("JMP " ++ regName r)
  | .jeq r => some ("JEQ " ++ regName r)
  | .jne r => some ("JNE " ++ regName r)
  | .jgt r => some ("JGT " ++ regName r)
  | .jlt r => some ("JLT " ++ regName r)
  | .jle r => some ("JLE " ++ regName r)
  | .jge r => some ("JGE " ++ regName r)
  | .inc a b => some ("INC " ++ regName a ++ "," ++ regName b)
  | .dec a b => some ("DEC " ++ regName a ++ "," ++ regName b)
  | .not a b => some ("NOT " ++ regName a ++ "," ++ regName b)
  | .ldi r v => some ("LDI " ++ regName r ++ "," ++ toString v.toNat)
  | .add a b => some ("ADD " ++ regName a ++ "," ++ regName b)
  | .sub a b => some ("SUB " ++ regName a ++ "," ++ regName b)
  | .mul a b => some ("MUL " ++ regName a ++ "," ++ regName b)
  | .div a b => some ("DIV " ++ regName a ++ "," ++ regName b)
  | .mod a b => some ("MOD " ++ regName a ++ "," ++ regName b)
  | .cmp a b => some ("CMP " ++ regName a ++ "," ++ regName b)
  | .and a b => some ("AND " ++ regName a ++ "," ++ regName b)
  | .or a b => some ("OR " ++ regName a ++ "," ++ regName b)
  | .xor a b => some ("XOR " ++ regName a ++ "," ++ regName b)
  | .shl a b => some ("SHL " ++ regName a ++ "," ++ regName b)
  | .shr a b => some ("SHR " ++ regName a ++ "," ++ regName b)
  | .int => none
  | .iret => none
  | .ld => none
  | .st => none
  | .pra => none
  | .anyOtherByte _ => none

end Sys2Proof.Machine
end

