-- ==== Sys2Proof/Tests/Slice0.lean ====
section
/-! SUPPORT. The model's own tests. Expected values come from spec/95_test_vectors.md (the vector's name stands in the comment) and
the encodings of spec/30_encoding.md R63. The witnesses show that the hypotheses of each statement can be met. -/

namespace Sys2Proof.Tests

open Sys2Proof Sys2Proof.Machine

/-! ### Helpers -/

/-- The next state of an outcome. -/
def nextState : Host.Outcome State Fault Refusal → Option State
  | .next s => some s
  | .fault _ => none
  | .refused _ => none

/-- The reset state with other registers. -/
def withRegs (x : Vector Byte 8) : State := { State.reset with x := x }

/-- The state with bytes stored from `pc` on, where the next step fetches. -/
def placed (s : State) (pc : PcWord) (bytes : List Byte) : State :=
  { s with pc := pc, mem := s.mem.writeBytes pc.toNat bytes }

/-- One step from bytes placed at `pc`. -/
def stepAt (s : State) (pc : PcWord) (bytes : List Byte) : Option State := nextState (step (placed s pc bytes))

/-- What a fault test looks at: the FSM, the record and the pc. -/
def faultView (o : Option State) : Option (Fsm × Option FaultRecord × PcWord) := o.map fun t => (t.fsm, t.fault, t.pc)

/-! ### WellFormed: each check refuses an ill-formed term -/

theorem test_wf_byte_of_an_opcode_refused : WellFormed Config.default (.anyOtherByte 0xA0) = false := by decide
theorem test_wf_byte_of_a_named_row_refused : WellFormed Config.default (.anyOtherByte 0x52) = false := by decide
theorem test_wf_jump_refused_when_absent :
    WellFormed { Config.default with jumpFamily := .absent } (.jne 3) = false := by decide
theorem test_wf_jump_byte_when_absent :
    WellFormed { Config.default with jumpFamily := .absent } (.anyOtherByte 0x56) = true := by decide
theorem test_wf_other_byte : WellFormed Config.default (.anyOtherByte 0xFF) = true := by decide
theorem test_wf_any_operand : WellFormed Config.default (.add 200 255) = true := by decide

/-! ### Decode: one byte sequence per constructor, from the table of 30_encoding R63 -/

theorem test_decode_nop : decode Config.default [0x00] = .ok (.nop, []) := by decide
theorem test_decode_hlt : decode Config.default [0x01] = .ok (.hlt, []) := by decide
theorem test_decode_ret : decode Config.default [0x11] = .ok (.ret, []) := by decide
theorem test_decode_push : decode Config.default [0x45, 0x03] = .ok (.push 3, []) := by decide
theorem test_decode_pop : decode Config.default [0x46, 0x03] = .ok (.pop 3, []) := by decide
theorem test_decode_prn : decode Config.default [0x47, 0x03] = .ok (.prn 3, []) := by decide
theorem test_decode_call : decode Config.default [0x50, 0x03] = .ok (.call 3, []) := by decide
theorem test_decode_jmp : decode Config.default [0x54, 0x03] = .ok (.jmp 3, []) := by decide
theorem test_decode_jeq : decode Config.default [0x55, 0x03] = .ok (.jeq 3, []) := by decide
theorem test_decode_jne : decode Config.default [0x56, 0x03] = .ok (.jne 3, []) := by decide
theorem test_decode_jgt : decode Config.default [0x57, 0x03] = .ok (.jgt 3, []) := by decide
theorem test_decode_jlt : decode Config.default [0x58, 0x03] = .ok (.jlt 3, []) := by decide
theorem test_decode_jle : decode Config.default [0x59, 0x03] = .ok (.jle 3, []) := by decide
theorem test_decode_jge : decode Config.default [0x5A, 0x03] = .ok (.jge 3, []) := by decide
theorem test_decode_inc : decode Config.default [0x65, 0x03, 0x05] = .ok (.inc 3 5, []) := by decide
theorem test_decode_dec : decode Config.default [0x66, 0x03, 0x05] = .ok (.dec 3 5, []) := by decide
theorem test_decode_not : decode Config.default [0x69, 0x03, 0x05] = .ok (.not 3 5, []) := by decide
theorem test_decode_ldi : decode Config.default [0x82, 0x03, 0x05] = .ok (.ldi 3 5, []) := by decide
theorem test_decode_add : decode Config.default [0xA0, 0x03, 0x05] = .ok (.add 3 5, []) := by decide
theorem test_decode_sub : decode Config.default [0xA1, 0x03, 0x05] = .ok (.sub 3 5, []) := by decide
theorem test_decode_mul : decode Config.default [0xA2, 0x03, 0x05] = .ok (.mul 3 5, []) := by decide
theorem test_decode_div : decode Config.default [0xA3, 0x03, 0x05] = .ok (.div 3 5, []) := by decide
theorem test_decode_mod : decode Config.default [0xA4, 0x03, 0x05] = .ok (.mod 3 5, []) := by decide
theorem test_decode_cmp : decode Config.default [0xA7, 0x03, 0x05] = .ok (.cmp 3 5, []) := by decide
theorem test_decode_and : decode Config.default [0xA8, 0x03, 0x05] = .ok (.and 3 5, []) := by decide
theorem test_decode_or : decode Config.default [0xAA, 0x03, 0x05] = .ok (.or 3 5, []) := by decide
theorem test_decode_xor : decode Config.default [0xAB, 0x03, 0x05] = .ok (.xor 3 5, []) := by decide
theorem test_decode_shl : decode Config.default [0xAC, 0x03, 0x05] = .ok (.shl 3 5, []) := by decide
theorem test_decode_shr : decode Config.default [0xAD, 0x03, 0x05] = .ok (.shr 3 5, []) := by decide
theorem test_decode_int : decode Config.default [0x52] = .ok (.int, []) := by decide
theorem test_decode_iret : decode Config.default [0x13] = .ok (.iret, []) := by decide
theorem test_decode_ld : decode Config.default [0x83] = .ok (.ld, []) := by decide
theorem test_decode_st : decode Config.default [0x84] = .ok (.st, []) := by decide
theorem test_decode_pra : decode Config.default [0x48] = .ok (.pra, []) := by decide
theorem test_decode_any_other_byte : decode Config.default [0xFF] = .ok (.anyOtherByte 0xFF, []) := by decide
theorem test_decode_jump_absent :
    decode { Config.default with jumpFamily := .absent } [0x56, 0x03] = .ok (.anyOtherByte 0x56, [0x03]) := by decide
theorem test_decode_operand_missing : decode Config.default [0xA0, 0x00] = .error .secondOperandMissing := by decide
theorem test_decode_nothing : decode Config.default [] = .error .opcodeMissing := by decide
theorem test_decodeTableWord_ldi : decodeTableWord 24 0xFF0382 = some (.ldi 3 255) := by decide
theorem test_decodeTableWord_short : decodeTableWord 8 0xFF0345 = some (.push 0) := by decide
theorem test_default_map_distinct : Config.default.opcodeMap.distinct = true := by decide
theorem test_asm_ldi : asm (.ldi 3 255) = some "LDI R3,255" := by decide

/-! ### One step, from the vectors -/

/-- Vector A2. -/
theorem test_add_wraps :
    (stepAt (withRegs #v[200, 100, 0, 0, 0, 0, 0, 0xF4]) 0x10 [0xA0, 0x00, 0x01]).map (fun t => (t.x[0], t.pc)) = some (44, 0x13) := by decide
/-- Vector A4. -/
theorem test_add_second_index :
    faultView (stepAt (withRegs #v[0, 0, 0, 0, 0, 0, 0, 0xF4]) 0x10 [0xA0, 0x00, 0x09]) =
      some (.faulted, some ⟨.regIndex, 0x10, 9⟩, 0x10) := by decide
/-- Vector A5. -/
theorem test_sub_wraps :
    (stepAt (withRegs #v[3, 5, 0, 0, 0, 0, 0, 0xF4]) 0x10 [0xA1, 0x00, 0x01]).map (fun t => (t.x[0], t.pc)) = some (254, 0x13) := by decide
/-- Vector A6. -/
theorem test_sub_self :
    (stepAt (withRegs #v[77, 0, 0, 0, 0, 0, 0, 0xF4]) 0x10 [0xA1, 0x00, 0x00]).map (fun t => (t.x[0], t.pc)) = some (0, 0x13) := by decide
/-- Vector A7. -/
theorem test_mul_high_part_lost :
    (stepAt (withRegs #v[16, 16, 0, 0, 0, 0, 0, 0xF4]) 0x10 [0xA2, 0x00, 0x01]).map (fun t => (t.x[0], t.pc)) = some (0, 0x13) := by decide
/-- Vector A9. -/
theorem test_mul_255_255 :
    (stepAt (withRegs #v[255, 255, 0, 0, 0, 0, 0, 0xF4]) 0x10 [0xA2, 0x00, 0x01]).map (fun t => (t.x[0], t.pc)) = some (1, 0x13) := by decide
/-- Vector A10. -/
theorem test_div_floor :
    (stepAt (withRegs #v[7, 2, 0, 0, 0, 0, 0, 0xF4]) 0x10 [0xA3, 0x00, 0x01]).map (fun t => (t.x[0], t.pc)) = some (3, 0x13) := by decide
/-- Vector A13. -/
theorem test_div_zero_info_is_register :
    faultView (stepAt (withRegs #v[0, 0, 0, 0, 0, 0, 0, 0xF4]) 0x10 [0xA3, 0x02, 0x02]) =
      some (.faulted, some ⟨.divZero, 0x10, 2⟩, 0x10) := by decide
/-- Vector A15. -/
theorem test_mod_remainder :
    (stepAt (withRegs #v[17, 5, 0, 0, 0, 0, 0, 0xF4]) 0x10 [0xA4, 0x00, 0x01]).map (fun t => (t.x[0], t.pc)) = some (2, 0x13) := by decide
/-- Vector A17. -/
theorem test_mod_zero :
    faultView (stepAt (withRegs #v[0, 0, 0, 0, 0, 0, 0, 0xF4]) 0x10 [0xA4, 0x00, 0x01]) =
      some (.faulted, some ⟨.divZero, 0x10, 1⟩, 0x10) := by decide
/-- Vector A20. -/
theorem test_inc_selects_b_when_a_is_zero :
    (stepAt (withRegs #v[0, 0, 0, 4, 0, 0, 0, 0xF4]) 0x10 [0x65, 0x00, 0x03]).map (fun t => (t.x[3], t.pc)) = some (5, 0x13) := by decide
/-- Vector A22. -/
theorem test_inc_ignores_unselected :
    (stepAt (withRegs #v[0, 0, 0, 1, 0, 0, 0, 0xF4]) 0x10 [0x65, 0x03, 0xC8]).map (fun t => (t.x[3], t.pc)) = some (2, 0x13) := by decide
/-- Vector A25. -/
theorem test_dec_wraps :
    (stepAt (withRegs #v[0, 0, 0, 0, 0, 0, 0, 0xF4]) 0x10 [0x66, 0x02, 0x00]).map (fun t => (t.x[2], t.pc)) = some (255, 0x13) := by decide
/-- Vector A26. -/
theorem test_dec_moves_sp :
    (stepAt (withRegs #v[0, 0, 0, 0, 0, 0, 0, 0xF4]) 0x10 [0x66, 0x07, 0x00]).map (fun t => (t.x[7], t.pc)) = some (0xF3, 0x13) := by decide
/-- Vector A24: `reference_noop`. -/
theorem test_inc_reference_noop :
    (stepAt { withRegs #v[0, 41, 0, 0, 0, 0, 0, 0xF4] with cfg := { Config.default with incdecMode := .referenceNoop } }
      0x10 [0x65, 0x01, 0x00]).map (fun t => (t.x[1], t.pc)) = some (41, 0x13) := by decide
/-- Vector A28. -/
theorem test_cmp_unsigned :
    (stepAt (withRegs #v[0, 255, 0, 0, 0, 0, 0, 0xF4]) 0x10 [0xA7, 0x00, 0x01]).map (fun t => (t.flags, t.pc)) =
      some (⟨false, true, false⟩, 0x13) := by decide
/-- Vector A30. -/
theorem test_cmp_fault_keeps_flags :
    (stepAt { State.reset with flags := ⟨true, false, false⟩ } 0x10 [0xA7, 0x00, 0x08]).map (fun t => (t.flags, t.fault)) =
      some (⟨true, false, false⟩, some ⟨.regIndex, 0x10, 8⟩) := by decide
/-- Vector A31. -/
theorem test_and_bits :
    (stepAt (withRegs #v[0xF0, 0x3C, 0, 0, 0, 0, 0, 0xF4]) 0x10 [0xA8, 0x00, 0x01]).map (fun t => (t.x[0], t.pc)) = some (0x30, 0x13) := by decide
/-- Vector A32. -/
theorem test_or_bits :
    (stepAt (withRegs #v[0xF0, 0x0F, 0, 0, 0, 0, 0, 0xF4]) 0x10 [0xAA, 0x00, 0x01]).map (fun t => (t.x[0], t.pc)) = some (0xFF, 0x13) := by decide
/-- Vector A33. -/
theorem test_xor_bits :
    (stepAt (withRegs #v[0xFF, 0x0F, 0, 0, 0, 0, 0, 0xF4]) 0x10 [0xAB, 0x00, 0x01]).map (fun t => (t.x[0], t.pc)) = some (0xF0, 0x13) := by decide
/-- Vector A34. -/
theorem test_xor_self :
    (stepAt (withRegs #v[0, 0, 0, 0, 0, 0x5A, 0, 0xF4]) 0x10 [0xAB, 0x05, 0x05]).map (fun t => (t.x[5], t.pc)) = some (0, 0x13) := by decide
/-- Vector A37. -/
theorem test_shl_by_8 :
    (stepAt (withRegs #v[1, 8, 0, 0, 0, 0, 0, 0xF4]) 0x10 [0xAC, 0x00, 0x01]).map (fun t => (t.x[0], t.pc)) = some (0, 0x13) := by decide
/-- Vector A39. -/
theorem test_shl_by_itself :
    (stepAt (withRegs #v[2, 0, 0, 0, 0, 0, 0, 0xF4]) 0x10 [0xAC, 0x00, 0x00]).map (fun t => (t.x[0], t.pc)) = some (8, 0x13) := by decide
/-- Vector A41. -/
theorem test_shr_logical :
    (stepAt (withRegs #v[0x80, 7, 0, 0, 0, 0, 0, 0xF4]) 0x10 [0xAD, 0x00, 0x01]).map (fun t => (t.x[0], t.pc)) = some (1, 0x13) := by decide
/-- Vector A42. -/
theorem test_shr_by_255 :
    (stepAt (withRegs #v[0xFF, 255, 0, 0, 0, 0, 0, 0xF4]) 0x10 [0xAD, 0x00, 0x01]).map (fun t => (t.x[0], t.pc)) = some (0, 0x13) := by decide
/-- Vector A43. -/
theorem test_not_faults :
    faultView (stepAt (withRegs #v[5, 0, 0, 0, 0, 0, 0, 0xF4]) 0x10 [0x69, 0x00, 0x00]) =
      some (.faulted, some ⟨.unsupportedAlu, 0x10, 0x69⟩, 0x10) := by decide
/-- Vector A44. -/
theorem test_operand_beyond_memory :
    faultView (stepAt (withRegs #v[0, 0, 0, 0, 0, 0, 0, 0xF4]) 0xFE [0xA0, 0x00]) =
      some (.faulted, some ⟨.memRange, 0xFE, 0x100⟩, 0xFE) := by decide
/-- Vectors S1, S2: HLT at 0xFF. -/
theorem test_hlt_keeps_pc :
    (stepAt State.reset 0xFF [0x01]).map (fun t => (t.fsm, t.pc, t.out)) = some (.halted, 0xFF, [.halt]) := by decide
/-- Vector S4. -/
theorem test_prn_sp :
    (stepAt State.reset 0 [0x47, 0x07]).map (fun t => (t.out, t.pc)) = some ([.print 244], 2) := by decide
/-- Vector S5. -/
theorem test_prn_bad_register_prints_nothing :
    (stepAt State.reset 0 [0x47, 0x08]).map (fun t => (t.out, t.fault)) = some ([], some ⟨.regIndex, 0, 8⟩) := by decide
/-- Vector S8, first step. -/
theorem test_nop_leaves_memory : (stepAt State.reset 0xFF [0x00]).map (fun t => (t.fsm, t.pc)) = some (.running, 0x100) := by decide
/-- Vector S8, second step. -/
theorem test_fetch_beyond_memory :
    faultView (nextState (step { State.reset with pc := 0x100 })) =
      some (.faulted, some ⟨.memRange, 0x100, 0x100⟩, 0x100) := by decide
/-- Vector L2. -/
theorem test_ldi_sp :
    (stepAt (withRegs #v[0, 0, 0, 0, 0, 0, 0, 0xF4]) 0x10 [0x82, 0x07, 0x10]).map (fun t => (t.x[7], t.pc)) = some (0x10, 0x13) := by decide
/-- Vector L3. -/
theorem test_ldi_bad_register :
    faultView (stepAt (withRegs #v[0, 0, 0, 0, 0, 0, 0, 0xF4]) 0x10 [0x82, 0x0A, 0x01]) =
      some (.faulted, some ⟨.regIndex, 0x10, 10⟩, 0x10) := by decide
/-- Vector L5: PUSH R7 stores the decremented SP. -/
theorem test_push_sp :
    (stepAt State.reset 0x10 [0x45, 0x07]).map (fun t => (t.x[7], t.mem.read 0xF3, t.pc)) = some (0xF3, 0xF3, 0x12) := by decide
/-- Vector L6: SP wraps from 0 to 255. -/
theorem test_push_wraps :
    (stepAt (withRegs #v[9, 0, 0, 0, 0, 0, 0, 0]) 0x10 [0x45, 0x00]).map (fun t => (t.x[7], t.mem.read 0xFF)) =
      some (0xFF, 9) := by decide
/-- Vector L9: POP R7 increments what it popped. -/
theorem test_pop_sp :
    (stepAt { withRegs #v[0, 0, 0, 0, 0, 0, 0, 0xF3] with mem := [(0xF3, 0x10)] } 0x10 [0x46, 0x07]).map (fun t => t.x[7]) =
      some 0x11 := by decide
/-- Vector L10: SP wraps from 255 to 0. -/
theorem test_pop_wraps :
    (stepAt { withRegs #v[0, 0, 0, 0, 0, 0, 0, 0xFF] with mem := [(0xFF, 3)] } 0x10 [0x46, 0x00]).map
      (fun t => (t.x[0], t.x[7])) = some (3, 0) := by decide
/-- Vector C1. -/
theorem test_call :
    (stepAt (withRegs #v[0, 0x0B, 0, 0, 0, 0, 0, 0xF4]) 6 [0x50, 0x01]).map (fun t => (t.x[7], t.mem.read 0xF3, t.pc)) =
      some (0xF3, 0x08, 0x0B) := by decide
/-- Vector C3. -/
theorem test_call_return_range :
    faultView (stepAt (withRegs #v[0, 0x20, 0, 0, 0, 0, 0, 0xF4]) 0xFE [0x50, 0x01]) =
      some (.faulted, some ⟨.callReturnRange, 0xFE, 0x100⟩, 0xFE) := by decide
/-- Vector C2: CALL R7 jumps to the decremented SP. -/
theorem test_call_sp : (stepAt State.reset 0 [0x50, 0x07]).map (fun t => (t.mem.read 0xF3, t.pc)) = some (2, 0xF3) := by decide
/-- Vector C8. -/
theorem test_ret_wraps :
    (stepAt { withRegs #v[0, 0, 0, 0, 0, 0, 0, 0xFF] with mem := [(0xFF, 0x40)] } 0x10 [0x11]).map (fun t => (t.pc, t.x[7])) =
      some (0x40, 0) := by decide

/-- The state of the jump vectors: R3 = 0x30, and the flags. -/
def jumpState (e l g : Bool) : State := { withRegs #v[0, 0, 0, 0x30, 0, 0, 0, 0xF4] with flags := ⟨e, l, g⟩ }

/-- Vector J1. -/
theorem test_jmp : (stepAt (jumpState false false true) 0x10 [0x54, 0x03]).map (fun t => t.pc) = some 0x30 := by decide
/-- Vector J2. -/
theorem test_jeq_taken : (stepAt (jumpState true false false) 0x10 [0x55, 0x03]).map (fun t => t.pc) = some 0x30 := by decide
/-- Vector J3. -/
theorem test_jeq_not_taken : (stepAt (jumpState false false false) 0x10 [0x55, 0x03]).map (fun t => t.pc) = some 0x12 := by decide
/-- Vector J4. -/
theorem test_jne_taken : (stepAt (jumpState false false false) 0x10 [0x56, 0x03]).map (fun t => t.pc) = some 0x30 := by decide
/-- Vector J5. -/
theorem test_jne_not_taken : (stepAt (jumpState true false false) 0x10 [0x56, 0x03]).map (fun t => t.pc) = some 0x12 := by decide
/-- Vector J6. -/
theorem test_jgt_taken : (stepAt (jumpState false false true) 0x10 [0x57, 0x03]).map (fun t => t.pc) = some 0x30 := by decide
/-- Vector J7. -/
theorem test_jlt_not_taken : (stepAt (jumpState false false true) 0x10 [0x58, 0x03]).map (fun t => t.pc) = some 0x12 := by decide
/-- Vector J8. -/
theorem test_jle_taken : (stepAt (jumpState false true false) 0x10 [0x59, 0x03]).map (fun t => t.pc) = some 0x30 := by decide
/-- Vector J9. -/
theorem test_jle_not_taken : (stepAt (jumpState false false true) 0x10 [0x59, 0x03]).map (fun t => t.pc) = some 0x12 := by decide
/-- Vector J10. -/
theorem test_jge_taken : (stepAt (jumpState true false false) 0x10 [0x5A, 0x03]).map (fun t => t.pc) = some 0x30 := by decide
/-- Vector J11. -/
theorem test_jge_not_taken : (stepAt (jumpState false true false) 0x10 [0x5A, 0x03]).map (fun t => t.pc) = some 0x12 := by decide
/-- Vector J12: the index is checked though the jump is not taken. -/
theorem test_jeq_checks_register :
    faultView (stepAt State.reset 0x10 [0x55, 0x09]) = some (.faulted, some ⟨.regIndex, 0x10, 9⟩, 0x10) := by decide
/-- Vector J13: with `JUMP_FAMILY = absent` the opcode stalls. -/
theorem test_jne_absent_stalls :
    let s := placed { State.reset with cfg := { Config.default with jumpFamily := .absent } } 0x10 [0x56, 0x03]
    nextState (step s) = some s := by decide
/-- Vectors W8, D1: an unrecognised byte stalls. -/
theorem test_unrecognised_stalls :
    let s := placed State.reset 0 [0xFF]
    nextState (step s) = some s := by decide
/-- Vector D1: INT stalls. -/
theorem test_int_stalls :
    let s := placed State.reset 0 [0x52]
    nextState (step s) = some s := by decide
/-- Vector D4. -/
theorem test_halted_does_nothing :
    let s := { placed State.reset 0 [0xA0, 0x00, 0x00] with fsm := .halted }
    nextState (step s) = some s := by decide
/-- Program P7, the variant: the byte a PUSH stored is the next opcode fetched. -/
theorem test_pushed_opcode_is_fetched :
    ((stepAt (withRegs #v[1, 0, 0, 0, 0, 0, 0, 9]) 6 [0x45, 0x00, 0xFF]).bind fun t => nextState (step t)).map
      (fun t => (t.out, t.pc)) = some ([.halt], 8) := by decide
/-- The host's placement: step runs the placed word. -/
theorem test_withFetchWord :
    (nextState (step (State.reset.withFetchWord 24 0x080082))).map (fun t => (t.x[0], t.pc)) = some (8, 3) := by decide
/-- 10_state R28: L at bit 2, G at bit 1, E at bit 0. -/
theorem test_flags_packed :
    (Flags.packed ⟨true, false, false⟩, Flags.packed ⟨false, true, false⟩, Flags.packed ⟨false, false, true⟩) =
      ((1, 4, 2) : Byte × Byte × Byte) := by decide
/-- 70_reset_and_hazards R230: reset leaves FAULTED and keeps memory; `host_load` writes one cell. -/
theorem test_reset_and_load :
    let s := { State.reset with fsm := .faulted, fault := some ⟨.divZero, 3, 1⟩, mem := [(5, 7)] }
    (s.applyReset.fsm, s.applyReset.fault, s.applyReset.mem, (s.hostLoad 2 9).mem) =
      (.running, none, [(5, 7)], [(2, 9), (5, 7)]) := by decide
/-- 60_exceptions R201: the cause code on the output. -/
theorem test_fault_outputs :
    let s := { State.reset with fsm := .faulted, fault := some ⟨.callReturnRange, 254, 256⟩ }
    (s.faultedOut, s.faultCauseOut, s.faultPcOut, s.faultInfoOut, State.reset.faultCauseOut) =
      (true, 5, some 254, some 256, 0) := by decide
/-- Memory keeps its canonical form: writing 0 removes a cell, and cells stay in order. -/
theorem test_memory_canonical :
    (Memory.write (Memory.write (Memory.write [] 9 1) 3 2) 9 0, Memory.wf [(3, 2)], Memory.wf [(9, 1), (3, 2)],
      Memory.wf [(3, 0)], Memory.wf [(256, 1)]) = ([(3, 2)], true, false, false, false) := by decide

/-! ### Witnesses: the hypotheses of each statement, met together -/

/-- A byte alone in memory at `pc`, in RUNNING. -/
def edge (pc : PcWord) (op : Byte) : State := placed State.reset pc [op]

/-- The absent-family configuration. -/
def absentState : State := { State.reset with cfg := { Config.default with jumpFamily := .absent } }

/-- The `reference_noop` configuration. -/
def noopState : State := { State.reset with cfg := { Config.default with incdecMode := .referenceNoop } }

theorem witness_DecodeEncodeRoundTrip :
    Config.default.opcodeMap.distinct = true ∧ WellFormed Config.default (.add 255 8) = true ∧
      absentState.cfg.opcodeMap.distinct = true ∧ WellFormed absentState.cfg (.anyOtherByte 0x54) = true := by decide
theorem witness_DecodedBytesAreTheEncoding :
    decode Config.default [0x82, 0x03, 0xFF, 0x47] = .ok (.ldi 3 255, [0x47]) := by decide
theorem witness_ClassFixesLength :
    decode Config.default [0x47, 0xFF, 0x01] = .ok (.prn 255, [0x01]) ∧ Instr.length (.prn 255) = some 2 ∧
      decode Config.default [0x52, 0x07] = .ok (.int, [0x07]) ∧ Instr.length .int = none := by decide
theorem witness_UnrecognisedInstructionsChangeNothing :
    WellFormed Config.default (.anyOtherByte 0x02) = true ∧ WellFormed Config.default (.anyOtherByte 0xFF) = true := by decide
theorem witness_UnrecognisedOpcodeStalls :
    (edge 255 0xFF).fsm = .running ∧ (edge 255 0xFF).pc.toNat < 256 ∧
      (edge 255 0xFF).cfg.classOf ((edge 255 0xFF).mem.read (edge 255 0xFF).pc.toNat) = .unrecognised := by decide
theorem witness_StallIsPermanent :
    (edge 255 0xFF).fsm = .running ∧ (edge 255 0xFF).pc.toNat < 256 ∧
      (edge 255 0xFF).cfg.classOf ((edge 255 0xFF).mem.read (edge 255 0xFF).pc.toNat) = .unrecognised := by decide
theorem witness_AbsentJumpFamilyStalls :
    let s := placed absentState 0x14 [0x5A]
    s.fsm = .running ∧ s.cfg.jumpFamily = .absent ∧ s.cfg.opcodeMap.distinct = true ∧ s.pc.toNat < 256 ∧
      s.mem.read s.pc.toNat = s.cfg.opcodeMap.byte .jge := by decide
theorem witness_StepRunsDecodedInstruction :
    let s := placed State.reset 0xFD [0xA0, 0x00, 0x01]
    s.fsm = .running ∧ decode s.cfg (s.mem.bytesFrom s.pc.toNat 3) = .ok (.add 0 1, []) := by decide
theorem witness_StepRunsStoredInstruction :
    let s := placed State.reset 0xFE [0x47, 0x03]
    s.fsm = .running ∧ s.cfg.opcodeMap.distinct = true ∧ WellFormed s.cfg (.prn 3) = true ∧
      s.pc.toNat + (encode s.cfg (.prn 3)).length ≤ 256 ∧
      ∀ k b, (encode s.cfg (.prn 3))[k]? = some b → s.mem.read (s.pc.toNat + k) = b := by
  refine ⟨rfl, by decide, by decide, by decide, fun k b h => ?_⟩
  match k, h with
  | 0, h => cases h; decide
  | 1, h => cases h; decide
theorem witness_OpcodeFetchBeyondMemoryFaults :
    let s := { State.reset with pc := 256 }
    s.fsm = .running ∧ 256 ≤ s.pc.toNat := by decide
theorem witness_OperandFetchBeyondMemoryFaults :
    (let s := edge 255 0x69
    s.fsm = .running ∧ s.pc.toNat < 256 ∧ (s.cfg.classOf (s.mem.read s.pc.toNat)).length = some 3 ∧ s.pc.toNat + 1 = 256) ∧
    (let s := edge 254 0x69
    s.fsm = .running ∧ s.pc.toNat < 256 ∧ (s.cfg.classOf (s.mem.read s.pc.toNat)).length = some 3 ∧ s.pc.toNat + 2 = 256) := by decide
theorem witness_StoppedMachineDoesNothing :
    ({ State.reset with fsm := .halted } : State).fsm = .halted ∧ ({ State.reset with fsm := .faulted } : State).fsm = .faulted := by decide
theorem witness_InvariantKeptByEveryStep :
    Invariant State.reset ∧ step State.reset = .next { State.reset with pc := 1 } :=
  ⟨⟨rfl, by decide, by decide, by decide, by decide, fun _ h => (by cases h), ⟨[], rfl⟩⟩, rfl⟩
theorem witness_InvariantHoldsAtReset :
    ({ State.reset with mem := [(0, 1), (255, 2)] } : State).mem.wf = true := by decide
theorem witness_FsmTransitions :
    (edge 255 0x01).fsm = .running ∧ (nextState (step (edge 255 0x01))).map (fun t => t.fsm) = some .halted ∧
      (nextState (step (edge 255 0x47))).map (fun t => t.fsm) = some .faulted ∧
      ({ State.reset with fsm := .halted } : State).fsm ≠ .running ∧
      nextState (step { State.reset with fsm := .halted }) = some { State.reset with fsm := .halted } := by decide
theorem witness_FaultsArePrecise :
    State.reset.fsm ≠ .faulted ∧ (nextState (exec (.push 8) State.reset)).map (fun t => t.fsm) = some .faulted ∧
      (edge 0 0xA3).fsm = .running ∧ (nextState (step (edge 0 0xA3))).map (fun t => t.fsm) = some .faulted := by decide
theorem witness_OutputChangesOnlyByPrnAndHlt :
    (nextState (exec (.prn 7) State.reset)).map (fun t => t.out) = some [.print 244] ∧
      (nextState (exec .hlt State.reset)).map (fun t => t.out) = some [.halt] := by decide
theorem witness_ConfigurationIsFixed :
    (nextState (exec (.add 0 1) noopState)).map (fun t => t.cfg) = some noopState.cfg ∧
      (nextState (step absentState)).map (fun t => t.cfg) = some absentState.cfg := by decide
theorem witness_RegistersOutsideDestinationsUnchanged :
    (nextState (exec (.pop 0) State.reset)).isSome = true ∧ (0 = (0 : Byte).toNat) ∧ ¬ (6 = (0 : Byte).toNat ∨ 6 = 7) := by decide
theorem witness_FlagsChangedOnlyByCmp :
    (nextState (exec (.sub 0 0) State.reset)).isSome = true ∧
      (stepAt State.reset 0 [0xA7, 0, 0]).map (fun t => t.flags) = some ⟨true, false, false⟩ := by decide
theorem witness_MemoryChangedOnlyAtStackStore :
    (nextState (exec (.push 7) State.reset)).isSome = true ∧ storeAddr State.reset (.push 7) = some 0xF3 ∧
      storeAddr State.reset (.push 7) ≠ some 0xF4 ∧ storeAddr State.reset .ret = none := by decide
theorem witness_FlagsReadOnlyByConditionalJumps :
    readsFlags (.cmp 0 1) = false ∧ (nextState (exec (.cmp 0 1) State.reset)).isSome = true := by decide
theorem witness_AbsentJumpFamilyHidesFlags :
    absentState.cfg.jumpFamily = .absent ∧ (nextState (core.run 1 absentState)).isSome = true := by decide
theorem witness_PrnRule :
    (7 : Byte).toNat < 8 ∧ 8 ≤ (8 : Byte).toNat ∧ 8 ≤ (255 : Byte).toNat ∧
      ((edge 255 0x47).fsm = .running ∧ (edge 255 0x47).cfg = Config.default ∧ (edge 255 0x47).pc.toNat < 256 ∧ 256 < (edge 255 0x47).pc.toNat + 2 ∧ (edge 255 0x47).mem.read (edge 255 0x47).pc.toNat = 0x47) := by decide
theorem witness_JmpRule :
    (7 : Byte).toNat < 8 ∧ 8 ≤ (8 : Byte).toNat ∧ 8 ≤ (255 : Byte).toNat ∧
      ((edge 255 0x54).fsm = .running ∧ (edge 255 0x54).cfg = Config.default ∧ (edge 255 0x54).pc.toNat < 256 ∧ 256 < (edge 255 0x54).pc.toNat + 2 ∧ (edge 255 0x54).mem.read (edge 255 0x54).pc.toNat = 0x54) := by decide
theorem witness_JeqRule :
    (7 : Byte).toNat < 8 ∧ 8 ≤ (8 : Byte).toNat ∧ 8 ≤ (255 : Byte).toNat ∧
      ((edge 255 0x55).fsm = .running ∧ (edge 255 0x55).cfg = Config.default ∧ (edge 255 0x55).pc.toNat < 256 ∧ 256 < (edge 255 0x55).pc.toNat + 2 ∧ (edge 255 0x55).mem.read (edge 255 0x55).pc.toNat = 0x55) := by decide
theorem witness_JneRule :
    (7 : Byte).toNat < 8 ∧ 8 ≤ (8 : Byte).toNat ∧ 8 ≤ (255 : Byte).toNat ∧
      ((edge 255 0x56).fsm = .running ∧ (edge 255 0x56).cfg = Config.default ∧ (edge 255 0x56).pc.toNat < 256 ∧ 256 < (edge 255 0x56).pc.toNat + 2 ∧ (edge 255 0x56).mem.read (edge 255 0x56).pc.toNat = 0x56) := by decide
theorem witness_JgtRule :
    (7 : Byte).toNat < 8 ∧ 8 ≤ (8 : Byte).toNat ∧ 8 ≤ (255 : Byte).toNat ∧
      ((edge 255 0x57).fsm = .running ∧ (edge 255 0x57).cfg = Config.default ∧ (edge 255 0x57).pc.toNat < 256 ∧ 256 < (edge 255 0x57).pc.toNat + 2 ∧ (edge 255 0x57).mem.read (edge 255 0x57).pc.toNat = 0x57) := by decide
theorem witness_JltRule :
    (7 : Byte).toNat < 8 ∧ 8 ≤ (8 : Byte).toNat ∧ 8 ≤ (255 : Byte).toNat ∧
      ((edge 255 0x58).fsm = .running ∧ (edge 255 0x58).cfg = Config.default ∧ (edge 255 0x58).pc.toNat < 256 ∧ 256 < (edge 255 0x58).pc.toNat + 2 ∧ (edge 255 0x58).mem.read (edge 255 0x58).pc.toNat = 0x58) := by decide
theorem witness_JleRule :
    (7 : Byte).toNat < 8 ∧ 8 ≤ (8 : Byte).toNat ∧ 8 ≤ (255 : Byte).toNat ∧
      ((edge 255 0x59).fsm = .running ∧ (edge 255 0x59).cfg = Config.default ∧ (edge 255 0x59).pc.toNat < 256 ∧ 256 < (edge 255 0x59).pc.toNat + 2 ∧ (edge 255 0x59).mem.read (edge 255 0x59).pc.toNat = 0x59) := by decide
theorem witness_JgeRule :
    (7 : Byte).toNat < 8 ∧ 8 ≤ (8 : Byte).toNat ∧ 8 ≤ (255 : Byte).toNat ∧
      ((edge 255 0x5A).fsm = .running ∧ (edge 255 0x5A).cfg = Config.default ∧ (edge 255 0x5A).pc.toNat < 256 ∧ 256 < (edge 255 0x5A).pc.toNat + 2 ∧ (edge 255 0x5A).mem.read (edge 255 0x5A).pc.toNat = 0x5A) := by decide
theorem witness_IncRule :
    (7 : Byte) = (if (0 : Byte) ≠ 0 then 0 else 7) ∧ (7 : Byte).toNat < 8 ∧ (8 : Byte) = (if (8 : Byte) ≠ 0 then 8 else 0) ∧
      8 ≤ (8 : Byte).toNat ∧ State.reset.cfg.incdecMode = .intended ∧ noopState.cfg.incdecMode = .referenceNoop ∧
      ((edge 254 0x65).fsm = .running ∧ (edge 254 0x65).cfg = Config.default ∧ (edge 254 0x65).pc.toNat < 256 ∧ 256 < (edge 254 0x65).pc.toNat + 3 ∧ (edge 254 0x65).mem.read (edge 254 0x65).pc.toNat = 0x65) := by decide
theorem witness_DecRule :
    (7 : Byte) = (if (0 : Byte) ≠ 0 then 0 else 7) ∧ (7 : Byte).toNat < 8 ∧ (8 : Byte) = (if (8 : Byte) ≠ 0 then 8 else 0) ∧
      8 ≤ (8 : Byte).toNat ∧ State.reset.cfg.incdecMode = .intended ∧ noopState.cfg.incdecMode = .referenceNoop ∧
      ((edge 254 0x66).fsm = .running ∧ (edge 254 0x66).cfg = Config.default ∧ (edge 254 0x66).pc.toNat < 256 ∧ 256 < (edge 254 0x66).pc.toNat + 3 ∧ (edge 254 0x66).mem.read (edge 254 0x66).pc.toNat = 0x66) := by decide
theorem witness_NotRule :
    State.reset.cfg.opcodeMap = OpcodeMap.ls8 ∧
      ((edge 254 0x69).fsm = .running ∧ (edge 254 0x69).cfg = Config.default ∧ (edge 254 0x69).pc.toNat < 256 ∧ 256 < (edge 254 0x69).pc.toNat + 3 ∧ (edge 254 0x69).mem.read (edge 254 0x69).pc.toNat = 0x69) := by decide
theorem witness_LdiRule :
    (7 : Byte).toNat < 8 ∧ 8 ≤ (8 : Byte).toNat ∧ 8 ≤ (255 : Byte).toNat ∧
      ((edge 254 0x82).fsm = .running ∧ (edge 254 0x82).cfg = Config.default ∧ (edge 254 0x82).pc.toNat < 256 ∧ 256 < (edge 254 0x82).pc.toNat + 3 ∧ (edge 254 0x82).mem.read (edge 254 0x82).pc.toNat = 0x82) := by decide
theorem witness_AddRule :
    (7 : Byte).toNat < 8 ∧ 8 ≤ (8 : Byte).toNat ∧ 8 ≤ (255 : Byte).toNat ∧
      ((edge 254 0xA0).fsm = .running ∧ (edge 254 0xA0).cfg = Config.default ∧ (edge 254 0xA0).pc.toNat < 256 ∧ 256 < (edge 254 0xA0).pc.toNat + 3 ∧ (edge 254 0xA0).mem.read (edge 254 0xA0).pc.toNat = 0xA0) := by decide
theorem witness_SubRule :
    (7 : Byte).toNat < 8 ∧ 8 ≤ (8 : Byte).toNat ∧ 8 ≤ (255 : Byte).toNat ∧
      ((edge 254 0xA1).fsm = .running ∧ (edge 254 0xA1).cfg = Config.default ∧ (edge 254 0xA1).pc.toNat < 256 ∧ 256 < (edge 254 0xA1).pc.toNat + 3 ∧ (edge 254 0xA1).mem.read (edge 254 0xA1).pc.toNat = 0xA1) := by decide
theorem witness_MulRule :
    (7 : Byte).toNat < 8 ∧ 8 ≤ (8 : Byte).toNat ∧ 8 ≤ (255 : Byte).toNat ∧
      ((edge 254 0xA2).fsm = .running ∧ (edge 254 0xA2).cfg = Config.default ∧ (edge 254 0xA2).pc.toNat < 256 ∧ 256 < (edge 254 0xA2).pc.toNat + 3 ∧ (edge 254 0xA2).mem.read (edge 254 0xA2).pc.toNat = 0xA2) := by decide
theorem witness_DivRule :
    (7 : Byte).toNat < 8 ∧ 8 ≤ (8 : Byte).toNat ∧ 8 ≤ (255 : Byte).toNat ∧ State.reset.x[(7 : Byte).toNat] ≠ 0 ∧ State.reset.x[(0 : Byte).toNat] = 0 ∧
      ((edge 254 0xA3).fsm = .running ∧ (edge 254 0xA3).cfg = Config.default ∧ (edge 254 0xA3).pc.toNat < 256 ∧ 256 < (edge 254 0xA3).pc.toNat + 3 ∧ (edge 254 0xA3).mem.read (edge 254 0xA3).pc.toNat = 0xA3) := by decide
theorem witness_ModRule :
    (7 : Byte).toNat < 8 ∧ 8 ≤ (8 : Byte).toNat ∧ 8 ≤ (255 : Byte).toNat ∧ State.reset.x[(7 : Byte).toNat] ≠ 0 ∧ State.reset.x[(0 : Byte).toNat] = 0 ∧
      ((edge 254 0xA4).fsm = .running ∧ (edge 254 0xA4).cfg = Config.default ∧ (edge 254 0xA4).pc.toNat < 256 ∧ 256 < (edge 254 0xA4).pc.toNat + 3 ∧ (edge 254 0xA4).mem.read (edge 254 0xA4).pc.toNat = 0xA4) := by decide
theorem witness_CmpRule :
    (7 : Byte).toNat < 8 ∧ 8 ≤ (8 : Byte).toNat ∧ 8 ≤ (255 : Byte).toNat ∧
      ((edge 254 0xA7).fsm = .running ∧ (edge 254 0xA7).cfg = Config.default ∧ (edge 254 0xA7).pc.toNat < 256 ∧ 256 < (edge 254 0xA7).pc.toNat + 3 ∧ (edge 254 0xA7).mem.read (edge 254 0xA7).pc.toNat = 0xA7) := by decide
theorem witness_AndRule :
    (7 : Byte).toNat < 8 ∧ 8 ≤ (8 : Byte).toNat ∧ 8 ≤ (255 : Byte).toNat ∧
      ((edge 254 0xA8).fsm = .running ∧ (edge 254 0xA8).cfg = Config.default ∧ (edge 254 0xA8).pc.toNat < 256 ∧ 256 < (edge 254 0xA8).pc.toNat + 3 ∧ (edge 254 0xA8).mem.read (edge 254 0xA8).pc.toNat = 0xA8) := by decide
theorem witness_OrRule :
    (7 : Byte).toNat < 8 ∧ 8 ≤ (8 : Byte).toNat ∧ 8 ≤ (255 : Byte).toNat ∧
      ((edge 254 0xAA).fsm = .running ∧ (edge 254 0xAA).cfg = Config.default ∧ (edge 254 0xAA).pc.toNat < 256 ∧ 256 < (edge 254 0xAA).pc.toNat + 3 ∧ (edge 254 0xAA).mem.read (edge 254 0xAA).pc.toNat = 0xAA) := by decide
theorem witness_XorRule :
    (7 : Byte).toNat < 8 ∧ 8 ≤ (8 : Byte).toNat ∧ 8 ≤ (255 : Byte).toNat ∧
      ((edge 254 0xAB).fsm = .running ∧ (edge 254 0xAB).cfg = Config.default ∧ (edge 254 0xAB).pc.toNat < 256 ∧ 256 < (edge 254 0xAB).pc.toNat + 3 ∧ (edge 254 0xAB).mem.read (edge 254 0xAB).pc.toNat = 0xAB) := by decide
theorem witness_ShlRule :
    (7 : Byte).toNat < 8 ∧ 8 ≤ (8 : Byte).toNat ∧ 8 ≤ (255 : Byte).toNat ∧
      ((edge 254 0xAC).fsm = .running ∧ (edge 254 0xAC).cfg = Config.default ∧ (edge 254 0xAC).pc.toNat < 256 ∧ 256 < (edge 254 0xAC).pc.toNat + 3 ∧ (edge 254 0xAC).mem.read (edge 254 0xAC).pc.toNat = 0xAC) := by decide
theorem witness_ShrRule :
    (7 : Byte).toNat < 8 ∧ 8 ≤ (8 : Byte).toNat ∧ 8 ≤ (255 : Byte).toNat ∧
      ((edge 254 0xAD).fsm = .running ∧ (edge 254 0xAD).cfg = Config.default ∧ (edge 254 0xAD).pc.toNat < 256 ∧ 256 < (edge 254 0xAD).pc.toNat + 3 ∧ (edge 254 0xAD).mem.read (edge 254 0xAD).pc.toNat = 0xAD) := by decide
theorem witness_NopRule :
    ({ State.reset with pc := 255 } : State).fsm = .running ∧ ({ State.reset with pc := 255 } : State).pc = 255 := by decide
theorem witness_AluIsModularArithmetic :
    (7 : Byte).toNat < 8 ∧ (0 : Byte).toNat < 8 ∧ State.reset.x[(7 : Byte).toNat] ≠ 0 := by decide
theorem witness_PushRule :
    (0xF3 : Byte).toNat = (State.reset.x[7].toNat + 255) % 256 ∧ (7 : Byte).toNat < 8 ∧ 8 ≤ (8 : Byte).toNat ∧
      (0xFF : Byte).toNat = ((withRegs #v[0, 0, 0, 0, 0, 0, 0, 0]).x[7].toNat + 255) % 256 ∧
      ((edge 255 0x45).fsm = .running ∧ (edge 255 0x45).cfg = Config.default ∧ (edge 255 0x45).pc.toNat < 256 ∧ 256 < (edge 255 0x45).pc.toNat + 2 ∧ (edge 255 0x45).mem.read (edge 255 0x45).pc.toNat = 0x45) := by decide
theorem witness_PopRule :
    (0xF5 : Byte).toNat = (State.reset.x[7].toNat + 1) % 256 ∧ (6 : Byte).toNat < 7 ∧ 8 ≤ (8 : Byte).toNat ∧
      (1 : Byte).toNat = ((State.reset.mem.read State.reset.x[7].toNat).toNat + 1) % 256 ∧
      ((edge 255 0x46).fsm = .running ∧ (edge 255 0x46).cfg = Config.default ∧ (edge 255 0x46).pc.toNat < 256 ∧ 256 < (edge 255 0x46).pc.toNat + 2 ∧ (edge 255 0x46).mem.read (edge 255 0x46).pc.toNat = 0x46) := by decide
theorem witness_PushPopRoundTrip :
    (6 : Byte).toNat < 7 ∧ (0 : Byte).toNat < 7 := by decide
theorem witness_CallRule :
    ({ State.reset with pc := 253 } : State).pc.toNat + 2 ≤ 255 ∧ (0xF3 : Byte).toNat = (State.reset.x[7].toNat + 255) % 256 ∧
      (7 : Byte).toNat < 8 ∧ 8 ≤ (8 : Byte).toNat ∧ 255 < ({ State.reset with pc := 254 } : State).pc.toNat + 2 ∧
      ({ State.reset with pc := 254 } : State).pc.toNat + 2 < 512 ∧
      ((edge 255 0x50).fsm = .running ∧ (edge 255 0x50).cfg = Config.default ∧ (edge 255 0x50).pc.toNat < 256 ∧ 256 < (edge 255 0x50).pc.toNat + 2 ∧ (edge 255 0x50).mem.read (edge 255 0x50).pc.toNat = 0x50) := by decide
theorem witness_RetRule :
    (0xF5 : Byte).toNat = (State.reset.x[7].toNat + 1) % 256 := by decide
theorem witness_CallRetRoundTrip :
    ({ State.reset with pc := 253 } : State).pc.toNat + 2 ≤ 255 ∧ (7 : Byte).toNat < 8 ∧
      ∃ t, exec (.call 7) { State.reset with pc := 253 } = .next t ∧
        ∃ u : State, u.x[7] = t.x[7] ∧ u.mem.read t.x[7].toNat = t.mem.read t.x[7].toNat :=
  ⟨by decide, by decide, _, rfl, _, rfl, rfl⟩
theorem witness_ResetRestoresCoreState : ∃ s : State, State.applyReset (edge 3 1) = s.applyReset := ⟨edge 3 1, rfl⟩
theorem witness_BootImageIsInMemory :
    (List.replicate 256 (1 : Byte)).length ≤ 256 := by rw [List.length_replicate]

end Sys2Proof.Tests
end

section
/-! SUPPORT. What each instruction that is not one of the shared operand forms can answer: one lemma per instruction, in the shape
of the lemmas `aluBinary_cases` to `jumpIf_cases` about the forms. -/

namespace Sys2Proof.Machine

@[simp] theorem State.decSp_mem (s : State) : s.decSp.mem = s.mem := rfl

/-- Everything CMP can answer (40_alu R108). -/
theorem execCmp_cases (s : State) (a b : Byte) :
    (∃ (ha : a.toNat < 8) (hb : b.toNat < 8), execCmp a b s =
        .next ((s.setFlags (compareFlags s.x[a.toNat] s.x[b.toNat])).advance 3)) ∨
      ∃ i, execCmp a b s = .next (s.takeFault (regIndex i)) ∧ 8 ≤ i.toNat := by
  rcases readPair_cases s a b with ⟨ha, hb, h⟩ | ⟨i, h, hi⟩
  · exact .inl ⟨ha, hb, by simp [execCmp, h, bind, Except.bind, pure, Except.pure]⟩
  · exact .inr ⟨i, by simp [execCmp, h, bind, Except.bind], hi⟩

/-- Everything LDI can answer (42_load_stack R140). -/
theorem execLdi_cases (s : State) (r imm : Byte) :
    (∃ hr : r.toNat < 8, execLdi r imm s = .next (aluResult s r.toNat hr imm)) ∨
      (8 ≤ r.toNat ∧ execLdi r imm s = .next (s.takeFault (regIndex r))) := by
  rcases s.writeReg_cases r imm with ⟨hr, h⟩ | ⟨hr, h⟩
  · exact .inl ⟨hr, by simp [execLdi, h, bind, Except.bind, pure, Except.pure, aluResult]⟩
  · exact .inr ⟨hr, by simp [execLdi, h, bind, Except.bind]⟩

/-- Everything PUSH can answer (42_load_stack R141): the register is read after SP is decremented. -/
theorem execPush_cases (s : State) (r : Byte) :
    (∃ hr : r.toNat < 8, execPush r s =
        .next ((s.decSp.setMem (s.mem.write s.pushAddr.toNat s.decSp.x[r.toNat])).advance 2)) ∨
      (8 ≤ r.toNat ∧ execPush r s = .next (s.takeFault (regIndex r))) := by
  rcases s.decSp.readReg_cases r with ⟨hr, h⟩ | ⟨hr, h⟩
  · exact .inl ⟨hr, by simp [execPush, h, bind, Except.bind, pure, Except.pure]⟩
  · exact .inr ⟨hr, by simp [execPush, h, bind, Except.bind]⟩

/-- Everything POP can answer (42_load_stack R142): SP is incremented after the register is written. -/
theorem execPop_cases (s : State) (r : Byte) :
    (∃ hr : r.toNat < 8, execPop r s =
        .next ((s.setX (s.x.set r.toNat (s.mem.read s.sp.toNat))).incSp.advance 2)) ∨
      (8 ≤ r.toNat ∧ execPop r s = .next (s.takeFault (regIndex r))) := by
  rcases s.writeReg_cases r (s.mem.read s.sp.toNat) with ⟨hr, h⟩ | ⟨hr, h⟩
  · exact .inl ⟨hr, by simp [execPop, h, bind, Except.bind, pure, Except.pure]⟩
  · exact .inr ⟨hr, by simp [execPop, h, bind, Except.bind]⟩

/-- Everything CALL can answer (43_call_return R150): the return address is checked first, and the target is read after SP is
decremented. -/
theorem execCall_cases (s : State) (r : Byte) :
    (s.returnAddr.toNat ≤ 255 ∧ ∃ hr : r.toNat < 8, execCall r s =
        .next ((s.decSp.setMem (s.mem.write s.pushAddr.toNat (s.returnAddr.setWidth 8))).goto s.decSp.x[r.toNat])) ∨
      (255 < s.returnAddr.toNat ∧ execCall r s = .next (s.takeFault (callReturnRange s.returnAddr))) ∨
      (8 ≤ r.toNat ∧ execCall r s = .next (s.takeFault (regIndex r))) := by
  by_cases hret : 255 < s.returnAddr.toNat
  · refine .inr (.inl ⟨hret, ?_⟩)
    simp [execCall, hret, bind, Except.bind, throw, throwThe, MonadExceptOf.throw]
  · rcases (s.decSp.setMem (s.mem.write s.pushAddr.toNat (s.returnAddr.setWidth 8))).readReg_cases r with
      ⟨hr, h⟩ | ⟨hr, h⟩
    · refine .inl ⟨by omega, hr, ?_⟩
      simp [execCall, hret, h, bind, Except.bind, pure, Except.pure]
    · exact .inr (.inr ⟨hr, by simp [execCall, hret, h, bind, Except.bind]⟩)

/-- RET always completes (43_call_return R151). -/
theorem execRet_eq (s : State) : execRet s = .next (s.incSp.goto (s.mem.read s.sp.toNat)) := by
  simp [execRet, bind, Except.bind, pure, Except.pure]

/-- Everything PRN can answer (41_system R131). -/
theorem execPrn_cases (s : State) (r : Byte) :
    (∃ hr : r.toNat < 8, execPrn r s = .next ((s.emit (.print s.x[r.toNat])).advance 2)) ∨
      (8 ≤ r.toNat ∧ execPrn r s = .next (s.takeFault (regIndex r))) := by
  rcases s.readReg_cases r with ⟨hr, h⟩ | ⟨hr, h⟩
  · exact .inl ⟨hr, by simp [execPrn, h, bind, Except.bind, pure, Except.pure]⟩
  · exact .inr ⟨hr, by simp [execPrn, h, bind, Except.bind]⟩

end Sys2Proof.Machine
end

section
/-! The configuration is fixed (00_scope R6; log entry 1): every form of instruction keeps it, so every instruction, every
step and every reset does. -/

namespace Sys2Proof.Machine

@[simp] theorem State.advance_cfg (s : State) (n : PcWord) : (s.advance n).cfg = s.cfg := rfl
@[simp] theorem State.goto_cfg (s : State) (target : Byte) : (s.goto target).cfg = s.cfg := rfl
@[simp] theorem State.emit_cfg (s : State) (e : Event) : (s.emit e).cfg = s.cfg := rfl
@[simp] theorem State.decSp_cfg (s : State) : s.decSp.cfg = s.cfg := rfl
@[simp] theorem State.incSp_cfg (s : State) : s.incSp.cfg = s.cfg := rfl
@[simp] theorem State.takeFault_cfg (s : State) (r : Raise) : (s.takeFault r).cfg = s.cfg := rfl
@[simp] theorem State.applyReset_cfg (s : State) : s.applyReset.cfg = s.cfg := rfl
@[simp] theorem aluResult_cfg (s : State) (a : Nat) (h : a < 8) (v : Byte) : (aluResult s a h v).cfg = s.cfg := rfl

/-- The outcome is a next state under the configuration `c`. -/
def NextUnder (c : Config) (o : Host.Outcome State Fault Refusal) : Prop := ∃ t, o = .next t ∧ t.cfg = c

@[simp] theorem nextUnder_next (c : Config) (t : State) : NextUnder c (.next t) ↔ t.cfg = c := by
  simp [NextUnder]

theorem aluBinary_nextUnder (f : Nat → Nat → Nat) (s : State) (a b : Byte) :
    NextUnder s.cfg (commit s (aluBinary f a b s)) := by
  rcases aluBinary_cases f s a b with ⟨_, _, h⟩ | ⟨_, h, _⟩ <;> simp [h]

theorem aluDivide_nextUnder (f : Nat → Nat → Nat) (s : State) (a b : Byte) :
    NextUnder s.cfg (commit s (aluDivide f a b s)) := by
  rcases aluDivide_cases f s a b with ⟨_, _, _, h⟩ | ⟨_, h⟩ | ⟨_, h, _⟩ <;> simp [h]

theorem aluIncDec_nextUnder (f : Nat → Nat) (s : State) (a b : Byte) :
    NextUnder s.cfg (commit s (aluIncDec f a b s)) := by
  rcases aluIncDec_cases f s a b with ⟨_, h⟩ | ⟨_, _, h⟩ | ⟨_, h⟩ <;> simp [h]

theorem jumpIf_nextUnder (taken : Bool) (s : State) (r : Byte) :
    NextUnder s.cfg (commit s (jumpIf taken r s)) := by
  rcases jumpIf_cases taken s r with ⟨_, h⟩ | ⟨_, h⟩
  · cases taken <;> simp [h]
  · simp [h]

theorem execCmp_nextUnder (s : State) (a b : Byte) : NextUnder s.cfg (execCmp a b s) := by
  rcases execCmp_cases s a b with ⟨_, _, h⟩ | ⟨_, h, _⟩ <;> simp [h]

theorem execLdi_nextUnder (s : State) (r imm : Byte) : NextUnder s.cfg (execLdi r imm s) := by
  rcases execLdi_cases s r imm with ⟨_, h⟩ | ⟨_, h⟩ <;> simp [h]

theorem execPush_nextUnder (s : State) (r : Byte) : NextUnder s.cfg (execPush r s) := by
  rcases execPush_cases s r with ⟨_, h⟩ | ⟨_, h⟩ <;> simp [h]

theorem execPop_nextUnder (s : State) (r : Byte) : NextUnder s.cfg (execPop r s) := by
  rcases execPop_cases s r with ⟨_, h⟩ | ⟨_, h⟩ <;> simp [h]

theorem execCall_nextUnder (s : State) (r : Byte) : NextUnder s.cfg (execCall r s) := by
  rcases execCall_cases s r with ⟨_, _, h⟩ | ⟨_, h⟩ | ⟨_, h⟩ <;> simp [h]

theorem execRet_nextUnder (s : State) : NextUnder s.cfg (execRet s) := by
  simp [execRet_eq]

theorem execPrn_nextUnder (s : State) (r : Byte) : NextUnder s.cfg (execPrn r s) := by
  rcases execPrn_cases s r with ⟨_, h⟩ | ⟨_, h⟩ <;> simp [h]

theorem exec_nextUnder (i : Instr) (s : State) : NextUnder s.cfg (exec i s) := by
  cases i with
  | add a b | sub a b | mul a b | and a b | or a b | xor a b | shl a b | shr a b => exact aluBinary_nextUnder _ s a b
  | div a b | mod a b => exact aluDivide_nextUnder _ s a b
  | inc a b | dec a b => exact aluIncDec_nextUnder _ s a b
  | jmp r | jeq r | jne r | jgt r | jlt r | jle r | jge r => exact jumpIf_nextUnder _ s r
  | cmp a b => exact execCmp_nextUnder s a b
  | ldi r imm => exact execLdi_nextUnder s r imm
  | push r => exact execPush_nextUnder s r
  | pop r => exact execPop_nextUnder s r
  | call r => exact execCall_nextUnder s r
  | ret => exact execRet_nextUnder s
  | prn r => exact execPrn_nextUnder s r
  | not | hlt | nop => exact ⟨_, rfl, rfl⟩
  | int | iret | ld | st | pra | anyOtherByte => exact ⟨s, rfl, rfl⟩

theorem step_nextUnder (s : State) : NextUnder s.cfg (step s) := by
  rcases step_cases s with ⟨_, h⟩ | ⟨_, i, _, h⟩ | ⟨_, r, _, h⟩
  · simp [h]
  · exact h ▸ exec_nextUnder i s
  · simp [h]

/-- Settles O20: the configuration is kept by every form of instruction, by fault entry and by `rst`. -/
theorem configurationIsFixed : Obligations.ConfigurationIsFixed := by
  unfold Obligations.ConfigurationIsFixed
  refine ⟨fun i s t h => ?_, fun s t h => ?_, State.applyReset_cfg⟩
  · simpa [h] using exec_nextUnder i s
  · simpa [h] using step_nextUnder s

end Sys2Proof.Machine
end

section
/-! How many bytes the decoder reads, and what that says about a fetch: a fetched instruction lies in memory whole, and a
fetch that raises names the first byte beyond memory (30_encoding R60, R61, R73). -/

namespace Sys2Proof

/-- The bytes of an instruction in memory; an unrecognised one is its opcode byte alone (30_encoding R67). -/
def Instr.size (i : Instr) : Nat := i.length.getD 1

theorem Instr.size_pos (i : Instr) : 0 < i.size := by
  unfold Instr.size Instr.length
  cases i.cls <;> decide

/-- A dispatched opcode gives an instruction of that opcode, and with the opcode byte every byte is accounted for. -/
theorem decodeOperands_ok {o : Opcode} {bs rest : List Byte} {i : Instr} (h : decodeOperands o bs = .ok (i, rest)) :
    i.opcode = some o ∧ i.size + rest.length = bs.length + 1 := by
  cases o with
  | nop | hlt | ret | int | iret | ld | st | pra => cases h; exact ⟨rfl, Nat.add_comm _ _⟩
  | push | pop | prn | call | jmp | jeq | jne | jgt | jlt | jle | jge =>
    obtain ⟨r, rfl, rfl⟩ := oneOperand_ok h
    exact ⟨rfl, Nat.add_comm _ _⟩
  | inc | dec | not | ldi | add | sub | mul | div | mod | cmp | and | or | xor | shl | shr =>
    obtain ⟨a, b, rfl, rfl⟩ := twoOperands_ok h
    exact ⟨rfl, Nat.add_comm _ _⟩

theorem oneOperand_error {mk : Byte → Instr} {bs : List Byte} {e : DecodeError} (h : oneOperand mk bs = .error e) :
    e.offset = bs.length + 1 ∧ bs.length < 2 := by
  match bs, h with
  | [], h => cases h; decide

theorem twoOperands_error {mk : Byte → Byte → Instr} {bs : List Byte} {e : DecodeError}
    (h : twoOperands mk bs = .error e) : e.offset = bs.length + 1 ∧ bs.length < 2 := by
  match bs, h with
  | [], h => cases h; decide
  | [_], h => cases h; exact ⟨rfl, Nat.one_lt_two⟩

/-- A dispatched opcode fails only where the bytes end, and then there are fewer than two operand bytes. -/
theorem decodeOperands_error {o : Opcode} {bs : List Byte} {e : DecodeError} (h : decodeOperands o bs = .error e) :
    e.offset = bs.length + 1 ∧ bs.length < 2 := by
  cases o with
  | nop | hlt | ret | int | iret | ld | st | pra => cases h
  | push | pop | prn | call | jmp | jeq | jne | jgt | jlt | jle | jge => exact oneOperand_error h
  | inc | dec | not | ldi | add | sub | mul | div | mod | cmp | and | or | xor | shl | shr => exact twoOperands_error h

/-- The decoder takes an instruction's bytes off the front, and what it gives is a known opcode or any other byte. -/
theorem decode_ok {c : Config} {bs rest : List Byte} {i : Instr} (h : decode c bs = .ok (i, rest)) :
    i.size + rest.length = bs.length ∧ ∀ o, i.opcode = some o → c.names o = true := by
  cases bs with
  | nil => cases h
  | cons op bs =>
    cases ho : c.opcodeOf op with
    | none =>
      rw [decode_unknown ho] at h
      cases h
      exact ⟨Nat.add_comm _ _, nofun⟩
    | some o =>
      rw [decode_known ho] at h
      obtain ⟨hop, hlen⟩ := decodeOperands_ok h
      refine ⟨hlen, fun p hp => ?_⟩
      rw [hop] at hp
      cases hp
      exact (Config.opcodeOf_some ho).1

/-- The decoder fails only where the bytes end, and then there are fewer than three. -/
theorem decode_error {c : Config} {bs : List Byte} {e : DecodeError} (h : decode c bs = .error e) :
    e.offset = bs.length ∧ bs.length < 3 := by
  cases bs with
  | nil => cases h; decide
  | cons op bs =>
    cases ho : c.opcodeOf op with
    | none => rw [decode_unknown ho] at h; cases h
    | some o =>
      rw [decode_known ho] at h
      obtain ⟨hoff, hlen⟩ := decodeOperands_error h
      exact ⟨hoff, Nat.succ_lt_succ hlen⟩

end Sys2Proof

namespace Sys2Proof.Machine

theorem Memory.length_bytesFrom (m : Memory) (a n : Nat) : (m.bytesFrom a n).length = min n (memSize - a) := by
  induction n generalizing a with
  | zero => simp [Memory.bytesFrom]
  | succ n ih =>
    by_cases h : a < memSize
    · rw [m.bytesFrom_of_lt n h, List.length_cons, ih]
      omega
    · rw [m.bytesFrom_of_ge _ (by omega), List.length_nil]
      omega

/-- The instruction at the pc lies in memory whole. -/
def Fits (s : State) (i : Instr) : Prop := s.pc.toNat + i.size ≤ memSize

/-- A fetched instruction lies in memory whole (30_encoding R73), and its opcode is one the decoder knows. -/
theorem fetch_ok {s : State} {i : Instr} (h : fetch s = .ok i) :
    Fits s i ∧ ∀ o, i.opcode = some o → s.cfg.names o = true := by
  rcases fetch_cases s with ⟨j, rest, hd, hf⟩ | ⟨e, _, hf⟩ <;> rw [hf] at h
  · cases h
    obtain ⟨hlen, hnames⟩ := decode_ok hd
    rw [Memory.length_bytesFrom] at hlen
    have hpos := i.size_pos
    exact ⟨by unfold Fits; omega, hnames⟩
  · cases h

/-- A fetch that raises names the first byte out of range: the pc itself, or 256 (30_encoding R72, R73). -/
theorem fetch_error {s : State} {r : Raise} (h : fetch s = .error r) : r = memRange (max memSize s.pc.toNat) := by
  rcases fetch_cases s with ⟨i, rest, _, hf⟩ | ⟨e, hd, hf⟩ <;> rw [hf] at h
  · cases h
  · obtain ⟨hoff, hlen⟩ := decode_error hd
    rw [Memory.length_bytesFrom] at hoff hlen
    cases h
    congr 1
    omega

end Sys2Proof.Machine
end

section
/-! What an instruction can do, said once: it completes in one of a few shapes, or it enters a fault that 60_exceptions R201 names.
The frame of every field, and the invariant of the machine, are read off these shapes. -/

namespace Sys2Proof.Machine

/-- The shapes in which an instruction completes. Each says what the shape writes and, where several instructions share it, what
makes an instruction one of them. -/
inductive Completion (s : State) (i : Instr) : State → Prop where
  /-- A register of its column "writes" takes a value, and the pc passes the three bytes. -/
  | register (a : Nat) (ha : a < 8) (v : Byte) (hw : writesReg s a i) (hn : i.size = 3) : Completion s i (aluResult s a ha v)
  /-- Only the pc moves, past the instruction. -/
  | advance (n : PcWord) (hn : i.size = n.toNat) : Completion s i (s.advance n)
  /-- A jump is taken. -/
  | goto (target : Byte) : Completion s i (s.goto target)
  | cmp (a b va vb : Byte) (hi : i = .cmp a b) : Completion s i ((s.setFlags (compareFlags va vb)).advance 3)
  | push (r v : Byte) (hi : i = .push r) :
      Completion s i ((s.decSp.setMem (s.mem.write s.pushAddr.toNat v)).advance 2)
  | pop (r v : Byte) (hr : r.toNat < 8) (hi : i = .pop r) :
      Completion s i ((s.setX (s.x.set r.toNat v)).incSp.advance 2)
  | call (r v target : Byte) (hi : i = .call r) :
      Completion s i ((s.decSp.setMem (s.mem.write s.pushAddr.toNat v)).goto target)
  | ret (target : Byte) (hi : i = .ret) : Completion s i (s.incSp.goto target)
  | prn (r : Byte) (hr : r.toNat < 8) (hi : i = .prn r) :
      Completion s i ((s.emit (.print s.x[r.toNat])).advance 2)
  | hlt (hi : i = .hlt) : Completion s i ((s.emit .halt).setFsm .halted)
  /-- An unrecognised opcode stalls. -/
  | stall : Completion s i s

/-- What an instruction raises is one of the faults of 60_exceptions R201, given that it lies in memory whole. -/
def LegalRaise (s : State) (i : Instr) (r : Raise) : Prop :=
  Fits s i → infoLegal s.cfg ⟨r.cause, s.pc, r.info⟩

/-- The outcome is a completion of the instruction, or fault entry with something it may raise. -/
inductive Answers (s : State) (i : Instr) : Host.Outcome State Fault Refusal → Prop where
  | completes {t : State} (h : Completion s i t) : Answers s i (.next t)
  | faults {r : Raise} (h : LegalRaise s i r) : Answers s i (.next (s.takeFault r))

/-! ### The faults -/

theorem legalRaise_regIndex {s : State} {i : Instr} {k : Byte} (hk : 8 ≤ k.toNat) : LegalRaise s i (regIndex k) := by
  intro _
  have hlt := k.isLt
  show 8 ≤ (k.setWidth 9).toNat ∧ (k.setWidth 9).toNat ≤ 255
  rw [BitVec.toNat_setWidth]
  omega

theorem legalRaise_divZero {s : State} {i : Instr} {b : Byte} (hb : b.toNat < 8) : LegalRaise s i (divZero b) := by
  intro _
  show (b.setWidth 9).toNat < 8
  rw [BitVec.toNat_setWidth]
  omega

theorem legalRaise_unsupportedAlu {s : State} {i : Instr} :
    LegalRaise s i (unsupportedAlu s.cfg.opcodeMap.not) := by
  intro _
  have hlt := s.cfg.opcodeMap.not.isLt
  show (s.cfg.opcodeMap.not.setWidth 9).toNat = s.cfg.opcodeMap.not.toNat
  rw [BitVec.toNat_setWidth]
  omega

/-- A CALL whose two bytes lie in memory has its return address out of range only at pc 254. -/
theorem legalRaise_callReturnRange {s : State} {r : Byte} (h : 255 < s.returnAddr.toNat) :
    LegalRaise s (.call r) (callReturnRange s.returnAddr) := by
  intro hfits
  have hpc : s.pc.toNat + 2 ≤ 256 := hfits
  have hret : s.returnAddr.toNat = s.pc.toNat + 2 := by
    rw [State.returnAddr, BitVec.toNat_add, show (2 : PcWord).toNat = 2 from rfl]
    omega
  show s.returnAddr.toNat = 256 ∧ s.pc.toNat = 254
  omega

/-! ### The operand forms and the single instructions -/

theorem aluBinary_answers {i : Instr} (f : Nat → Nat → Nat) (s : State) (a b : Byte)
    (hw : writesReg s a.toNat i) (hn : i.size = 3) : Answers s i (commit s (aluBinary f a b s)) := by
  rcases aluBinary_cases f s a b with ⟨ha, _, h⟩ | ⟨k, h, hk⟩ <;> rw [h]
  · exact .completes (.register _ ha _ hw hn)
  · exact .faults (legalRaise_regIndex hk)

theorem aluDivide_answers {i : Instr} (f : Nat → Nat → Nat) (s : State) (a b : Byte)
    (hw : writesReg s a.toNat i) (hn : i.size = 3) : Answers s i (commit s (aluDivide f a b s)) := by
  rcases aluDivide_cases f s a b with ⟨ha, _, _, h⟩ | ⟨hb, h⟩ | ⟨k, h, hk⟩ <;> rw [h]
  · exact .completes (.register _ ha _ hw hn)
  · exact .faults (legalRaise_divZero hb)
  · exact .faults (legalRaise_regIndex hk)

theorem aluIncDec_answers {i : Instr} (f : Nat → Nat) (s : State) (a b : Byte)
    (hw : s.cfg.incdecMode = .intended → writesReg s (incDecTarget a b).toNat i) (hn : i.size = 3) :
    Answers s i (commit s (aluIncDec f a b s)) := by
  rcases aluIncDec_cases f s a b with ⟨_, h⟩ | ⟨hm, ht, h⟩ | ⟨ht, h⟩ <;> rw [h]
  · exact .completes (.advance 3 hn)
  · exact .completes (.register _ ht _ (hw hm) hn)
  · exact .faults (legalRaise_regIndex ht)

theorem jumpIf_answers {i : Instr} (taken : Bool) (s : State) (r : Byte) (hn : i.size = 2) :
    Answers s i (commit s (jumpIf taken r s)) := by
  rcases jumpIf_cases taken s r with ⟨_, h⟩ | ⟨hr, h⟩ <;> rw [h]
  · cases taken with
    | true => exact .completes (.goto _)
    | false => exact .completes (.advance 2 hn)
  · exact .faults (legalRaise_regIndex hr)

theorem execCmp_answers (s : State) (a b : Byte) : Answers s (.cmp a b) (execCmp a b s) := by
  rcases execCmp_cases s a b with ⟨_, _, h⟩ | ⟨k, h, hk⟩ <;> rw [h]
  · exact .completes (.cmp a b _ _ rfl)
  · exact .faults (legalRaise_regIndex hk)

theorem execLdi_answers (s : State) (r imm : Byte) : Answers s (.ldi r imm) (execLdi r imm s) := by
  rcases execLdi_cases s r imm with ⟨hr, h⟩ | ⟨hr, h⟩ <;> rw [h]
  · exact .completes (.register _ hr _ rfl rfl)
  · exact .faults (legalRaise_regIndex hr)

theorem execPush_answers (s : State) (r : Byte) : Answers s (.push r) (execPush r s) := by
  rcases execPush_cases s r with ⟨_, h⟩ | ⟨hr, h⟩ <;> rw [h]
  · exact .completes (.push r _ rfl)
  · exact .faults (legalRaise_regIndex hr)

theorem execPop_answers (s : State) (r : Byte) : Answers s (.pop r) (execPop r s) := by
  rcases execPop_cases s r with ⟨hr, h⟩ | ⟨hr, h⟩ <;> rw [h]
  · exact .completes (.pop r _ hr rfl)
  · exact .faults (legalRaise_regIndex hr)

theorem execCall_answers (s : State) (r : Byte) : Answers s (.call r) (execCall r s) := by
  rcases execCall_cases s r with ⟨_, _, h⟩ | ⟨hret, h⟩ | ⟨hr, h⟩ <;> rw [h]
  · exact .completes (.call r _ _ rfl)
  · exact .faults (legalRaise_callReturnRange hret)
  · exact .faults (legalRaise_regIndex hr)

theorem execRet_answers (s : State) : Answers s .ret (execRet s) := by
  rw [execRet_eq]
  exact .completes (.ret _ rfl)

theorem execPrn_answers (s : State) (r : Byte) : Answers s (.prn r) (execPrn r s) := by
  rcases execPrn_cases s r with ⟨hr, h⟩ | ⟨hr, h⟩ <;> rw [h]
  · exact .completes (.prn r hr rfl)
  · exact .faults (legalRaise_regIndex hr)

/-- Everything an instruction can answer. -/
theorem exec_answers (i : Instr) (s : State) : Answers s i (exec i s) := by
  cases i with
  | add a b | sub a b | mul a b | and a b | or a b | xor a b | shl a b | shr a b => exact aluBinary_answers _ s a b rfl rfl
  | div a b | mod a b => exact aluDivide_answers _ s a b rfl rfl
  | inc a b | dec a b => exact aluIncDec_answers _ s a b (fun hm => ⟨hm, rfl⟩) rfl
  | jmp r | jeq r | jne r | jgt r | jlt r | jle r | jge r => exact jumpIf_answers _ s r rfl
  | cmp a b => exact execCmp_answers s a b
  | ldi r imm => exact execLdi_answers s r imm
  | push r => exact execPush_answers s r
  | pop r => exact execPop_answers s r
  | call r => exact execCall_answers s r
  | ret => exact execRet_answers s
  | prn r => exact execPrn_answers s r
  | not => exact .faults legalRaise_unsupportedAlu
  | hlt => exact .completes (.hlt rfl)
  | nop => exact .completes (.advance 1 rfl)
  | int | iret | ld | st | pra | anyOtherByte => exact .completes .stall

/-- Everything an instruction that answers `t` can have done. -/
theorem exec_next {i : Instr} {s t : State} (h : exec i s = .next t) :
    Completion s i t ∨ ∃ r, LegalRaise s i r ∧ t = s.takeFault r := by
  have hans := exec_answers i s
  rw [h] at hans
  cases hans with
  | completes hc => exact .inl hc
  | faults hr => exact .inr ⟨_, hr, rfl⟩

/-! ### What a completion leaves in each field -/

namespace Completion

variable {s t : State} {i : Instr}

theorem fault_eq (h : Completion s i t) : t.fault = s.fault := by cases h <;> rfl

/-- Only HLT moves the FSM. -/
theorem fsm_eq (h : Completion s i t) : t.fsm = s.fsm ∨ (i = .hlt ∧ t = (s.emit .halt).setFsm .halted) := by
  cases h with
  | hlt hi => exact .inr ⟨hi, rfl⟩
  | _ => exact .inl rfl

/-- Only CMP writes the flags (10_state R27). -/
theorem flags_eq (h : Completion s i t) :
    t.flags = s.flags ∨ ∃ a b va vb, i = .cmp a b ∧ t.flags = compareFlags va vb := by
  cases h with
  | cmp a b va vb hi => exact .inr ⟨a, b, va, vb, hi, rfl⟩
  | _ => exact .inl rfl

/-- Only PRN and HLT emit, one event each (10_state R32). -/
theorem out_eq (h : Completion s i t) :
    t.out = s.out ∨
      (∃ r, ∃ hr : r.toNat < 8, i = .prn r ∧ t.out = s.out ++ [.print s.x[r.toNat]]) ∨
      (i = .hlt ∧ t.out = s.out ++ [.halt]) := by
  cases h with
  | prn r hr hi => exact .inr (.inl ⟨r, hr, hi, rfl⟩)
  | hlt hi => exact .inr (.inr ⟨hi, rfl⟩)
  | _ => exact .inl rfl

/-- Memory stays canonical: the one store there is goes to a byte address. -/
theorem mem_wf (h : Completion s i t) (hm : s.mem.wf = true) : t.mem.wf = true := by
  cases h with
  | push | call => exact Memory.write_wf _ (byte_lt_memSize _) hm
  | _ => exact hm

/-- A register that the column "writes" of 10_state R23 does not list keeps its value. -/
theorem reg_eq (h : Completion s i t) {j : Nat} (hj : j < 8) (hw : ¬ writesReg s j i) : t.x[j] = s.x[j] := by
  cases h with
  | register a ha v hwa => exact Vector.getElem_set_ne ha hj fun e => hw (e ▸ hwa)
  | push r v hi | call r v _ hi =>
    subst hi
    exact Vector.getElem_set_ne (by decide) hj (Ne.symm hw)
  | ret _ hi =>
    subst hi
    exact Vector.getElem_set_ne (by decide) hj (Ne.symm hw)
  | pop r v hr hi =>
    subst hi
    obtain ⟨hjr, hj7⟩ := not_or.1 hw
    exact (Vector.getElem_set_ne (by decide) hj (Ne.symm hj7)).trans (Vector.getElem_set_ne hr hj (Ne.symm hjr))
  | _ => rfl

end Completion

/-- Settles O19: a completion appends at most one event, and fault entry none. -/
theorem outputChangesOnlyByPrnAndHlt : Obligations.OutputChangesOnlyByPrnAndHlt := by
  unfold Obligations.OutputChangesOnlyByPrnAndHlt
  intro i s t h
  rcases exec_next h with hc | ⟨r, _, rfl⟩
  · exact hc.out_eq
  · exact .inl rfl

/-- Settles O21: a completion writes only registers of the column "writes", and fault entry none. -/
theorem registersOutsideDestinationsUnchanged : Obligations.RegistersOutsideDestinationsUnchanged := by
  unfold Obligations.RegistersOutsideDestinationsUnchanged
  intro i s t h j hj hw
  rcases exec_next h with hc | ⟨r, _, rfl⟩
  · exact hc.reg_eq hj hw
  · rfl

theorem exec_flags_eq {i : Instr} {s t : State} (h : exec i s = .next t) : t.flags = s.flags ∨ ∃ a b, i = .cmp a b := by
  rcases exec_next h with hc | ⟨r, _, rfl⟩
  · exact hc.flags_eq.imp_right fun ⟨a, b, _, _, hi, _⟩ => ⟨a, b, hi⟩
  · exact .inl rfl

/-- Settles O22: of the completions only CMP's writes the flags; a step executes what it fetched. -/
theorem flagsChangedOnlyByCmp : Obligations.FlagsChangedOnlyByCmp := by
  unfold Obligations.FlagsChangedOnlyByCmp
  refine ⟨fun i s t h hcmp => (exec_flags_eq h).resolve_right fun ⟨a, b, hi⟩ => hcmp a b hi, fun s t h hne => ?_⟩
  rcases step_cases s with ⟨_, hs⟩ | ⟨_, i, hf, hs⟩ | ⟨_, r, _, hs⟩ <;> rw [hs] at h
  · cases h
    exact absurd rfl hne
  · obtain ⟨a, b, rfl⟩ := (exec_flags_eq h).resolve_left hne
    exact ⟨a, b, hf⟩
  · cases h
    exact absurd rfl hne

/-! ### A step in RUNNING -/

/-- The byte a fetch names as beyond memory is one that R201 allows, from every pc up to 258 (60_exceptions R201). -/
theorem fetch_error_infoLegal {s : State} {r : Raise} (hf : fetch s = .error r) (hpc : s.pc.toNat ≤ 258) :
    infoLegal s.cfg ⟨r.cause, s.pc, r.info⟩ := by
  rw [fetch_error hf]
  show 256 ≤ (BitVec.ofNat 9 (max memSize s.pc.toNat)).toNat ∧ (BitVec.ofNat 9 (max memSize s.pc.toNat)).toNat ≤ 258
  rw [BitVec.toNat_ofNat, memSize]
  omega

/-- Everything a step in RUNNING can do: the fetched instruction completes, or the step enters a fault with a legal record. -/
theorem step_running {s t : State} (hrun : s.fsm = .running) (h : step s = .next t) :
    (∃ i, fetch s = .ok i ∧ Fits s i ∧ Completion s i t) ∨
      ∃ r, t = s.takeFault r ∧ (s.pc.toNat ≤ 258 → infoLegal s.cfg ⟨r.cause, s.pc, r.info⟩) := by
  rcases step_cases s with ⟨hstop, _⟩ | ⟨_, i, hf, hs⟩ | ⟨_, r, hf, hs⟩
  · exact absurd hrun hstop
  · have hfits := (fetch_ok hf).1
    rcases exec_next (hs ▸ h) with hc | ⟨r, hr, rfl⟩
    · exact .inl ⟨i, hf, hfits, hc⟩
    · exact .inr ⟨r, rfl, fun _ => hr hfits⟩
  · rw [hs] at h
    exact .inr ⟨r, (Host.Outcome.next.inj h).symm, fetch_error_infoLegal hf⟩

/-- Outside RUNNING a step does nothing (30_encoding R74). -/
theorem step_of_stopped {s : State} (hstop : s.fsm ≠ .running) : step s = .next s := by
  simp [step, State.stepEnabled, hstop]

theorem step_stopped {s t : State} (hstop : s.fsm ≠ .running) (h : step s = .next t) : t = s := by
  rw [step_of_stopped hstop] at h
  exact (Host.Outcome.next.inj h).symm

theorem step_halted_iff {s t : State} (hrun : s.fsm = .running) (h : step s = .next t) :
    t.fsm = .halted ↔ fetch s = .ok .hlt := by
  constructor
  · intro ht
    rcases step_running hrun h with ⟨i, hf, _, hc⟩ | ⟨r, rfl, _⟩
    · rcases hc.fsm_eq with hfsm | ⟨rfl, _⟩
      · rw [hfsm, hrun] at ht
        cases ht
      · exact hf
    · cases ht
  · intro hf
    rw [step_of_fetch hrun hf] at h
    cases h
    rfl

theorem step_faulted_iff {s t : State} (hrun : s.fsm = .running) (h : step s = .next t) :
    t.fsm = .faulted ↔ ∃ cause info, t = { s with fsm := .faulted, fault := some ⟨cause, s.pc, info⟩ } := by
  constructor
  · intro ht
    rcases step_running hrun h with ⟨i, _, _, hc⟩ | ⟨r, rfl, _⟩
    · rcases hc.fsm_eq with hfsm | ⟨_, rfl⟩
      · rw [hfsm, hrun] at ht
        cases ht
      · cases ht
    · exact ⟨r.cause, r.info, s.takeFault_eq r⟩
  · rintro ⟨cause, info, rfl⟩
    rfl

/-- Settles O17: of the completions only HLT's moves the FSM, and every other way out of RUNNING is fault entry. -/
theorem fsmTransitions : Obligations.FsmTransitions := by
  unfold Obligations.FsmTransitions
  exact ⟨rfl, fun s t => step_stopped, fun _ => rfl, fun s t hrun h => ⟨step_halted_iff hrun h, step_faulted_iff hrun h⟩⟩

end Sys2Proof.Machine
end

section
/-! The invariant of the machine: reset meets it, and every completion and every fault entry keep it. -/

namespace Sys2Proof.Machine

theorem pc_add_le {s : State} {i : Instr} {n : PcWord} (hfits : Fits s i) (hn : i.size = n.toNat) :
    (s.pc + n).toNat ≤ 256 := by
  have hle : s.pc.toNat + n.toNat ≤ 256 := hn ▸ hfits
  rw [BitVec.toNat_add]
  omega

theorem State.goto_pc_le (s : State) (target : Byte) : (s.goto target).pc.toNat ≤ 256 := by
  have hlt := target.isLt
  show (target.setWidth 9).toNat ≤ 256
  rw [BitVec.toNat_setWidth]
  omega

namespace Completion

variable {s t : State} {i : Instr}

/-- An instruction that lies in memory leaves the pc in memory or on the address just beyond it (10_state R25). -/
theorem pc_le (h : Completion s i t) (hfits : Fits s i) : t.pc.toNat ≤ 256 := by
  cases h with
  | register a ha v hw hn => exact pc_add_le (n := 3) hfits hn
  | advance n hn => exact pc_add_le hfits hn
  | cmp a b va vb hi => exact pc_add_le (n := 3) hfits (hi ▸ rfl)
  | push r v hi => exact pc_add_le (n := 2) hfits (hi ▸ rfl)
  | pop r v hr hi => exact pc_add_le (n := 2) hfits (hi ▸ rfl)
  | prn r hr hi => exact pc_add_le (n := 2) hfits (hi ▸ rfl)
  | goto target | call r v target | ret target => exact State.goto_pc_le _ target
  | hlt | stall => exact (Nat.le_add_right _ _).trans hfits

/-- The completion is HLT's, which halts where it stands, or it leaves the FSM alone and emits at most `Print`. -/
theorem halts_or_prints (h : Completion s i t) :
    (t.fsm = .halted ∧ t.pc = s.pc ∧ t.out = s.out ++ [.halt]) ∨
      (t.fsm = s.fsm ∧ ∃ vs : List Byte, t.out = s.out ++ vs.map Event.print) := by
  cases h with
  | hlt => exact .inl ⟨rfl, rfl, rfl⟩
  | prn r hr => exact .inr ⟨rfl, [s.x[r.toNat]], rfl⟩
  | _ => exact .inr ⟨rfl, [], (List.append_nil _).symm⟩

end Completion

/-- A machine in RUNNING has no fault record, and has printed only (10_state R31, R32). -/
theorem Invariant.of_running {s : State} (hinv : Invariant s) (hrun : s.fsm = .running) :
    s.fault = none ∧ ∃ vs : List Byte, s.out = vs.map Event.print := by
  constructor
  · simpa [hrun] using hinv.recordWhenFaulted
  · simpa [hrun] using hinv.haltIsLast

theorem compareFlags_exclusive (va vb : Byte) :
    compareFlags va vb ∈
      [(⟨false, false, false⟩ : Flags), ⟨true, false, false⟩, ⟨false, true, false⟩, ⟨false, false, true⟩] := by
  rcases compareFlags_cases va vb with h | h | h <;> simp [h]

theorem Completion.invariant {s t : State} {i : Instr} (h : Completion s i t) (hfits : Fits s i) (hrun : s.fsm = .running)
    (hinv : Invariant s) : Invariant t := by
  obtain ⟨hnone, vs, hout⟩ := hinv.of_running hrun
  have hfault : t.fault = none := h.fault_eq.trans hnone
  have hpc : s.pc.toNat ≤ 255 := by
    have hpos := i.size_pos
    unfold Fits memSize at hfits
    omega
  refine
    { memCanonical := h.mem_wf hinv.memCanonical
      pcInRange := (h.pc_le hfits).trans (by decide)
      haltedInMemory := ?halted
      flagsExclusive := ?flags
      recordWhenFaulted := ?record
      recordLegal := fun f hf => nomatch hfault ▸ hf
      haltIsLast := ?out }
  case halted =>
    intro ht
    rcases h.halts_or_prints with ⟨_, hpc', _⟩ | ⟨hfsm, _⟩
    · exact hpc' ▸ hpc
    · simp [hfsm, hrun] at ht
  case flags =>
    rcases h.flags_eq with hfl | ⟨_, _, va, vb, _, hfl⟩ <;> rw [hfl]
    · exact hinv.flagsExclusive
    · exact compareFlags_exclusive va vb
  case record =>
    rcases h.halts_or_prints with ⟨hfsm, _⟩ | ⟨hfsm, _⟩ <;> simp [hfault, hfsm, hrun]
  case out =>
    rcases h.halts_or_prints with ⟨hfsm, _, ho⟩ | ⟨hfsm, ws, ho⟩
    · exact ⟨vs, by simp [ho, hout, hfsm]⟩
    · exact ⟨vs ++ ws, by simp [ho, hout, hfsm, hrun]⟩

/-- Fault entry with a legal record keeps the invariant: only the record and the FSM change (60_exceptions R203, R204). -/
theorem takeFault_invariant {s : State} {r : Raise} (hrun : s.fsm = .running) (hinv : Invariant s)
    (hlegal : infoLegal s.cfg ⟨r.cause, s.pc, r.info⟩) : Invariant (s.takeFault r) where
  memCanonical := hinv.memCanonical
  pcInRange := hinv.pcInRange
  haltedInMemory := nofun
  flagsExclusive := hinv.flagsExclusive
  recordWhenFaulted := ⟨fun _ => rfl, fun _ => rfl⟩
  recordLegal := by rintro f ⟨⟩; exact ⟨rfl, hlegal⟩
  haltIsLast := by
    obtain ⟨_, vs, hout⟩ := hinv.of_running hrun
    exact ⟨vs, by simp [State.takeFault, hout]⟩

/-- Settles O15: a stopped machine stays as it is, and in RUNNING the step is a completion or a fault entry that keeps the
invariant. -/
theorem invariantKeptByEveryStep : Obligations.InvariantKeptByEveryStep := by
  unfold Obligations.InvariantKeptByEveryStep
  intro s t hinv h
  by_cases hrun : s.fsm = .running
  · rcases step_running hrun h with ⟨i, _, hfits, hc⟩ | ⟨r, rfl, hlegal⟩
    · exact hc.invariant hfits hrun hinv
    · exact takeFault_invariant hrun hinv (hlegal hinv.pcInRange)
  · exact step_stopped hrun h ▸ hinv

theorem applyReset_invariant {s : State} (hm : s.mem.wf = true) : Invariant s.applyReset where
  memCanonical := hm
  pcInRange := Nat.zero_le _
  haltedInMemory := nofun
  flagsExclusive := List.mem_cons_self
  recordWhenFaulted := ⟨nofun, nofun⟩
  recordLegal := nofun
  haltIsLast := ⟨[], rfl⟩

/-- Settles O16: the state after power-on is the reset of itself, with empty memory. -/
theorem invariantHoldsAtReset : Obligations.InvariantHoldsAtReset := by
  unfold Obligations.InvariantHoldsAtReset
  exact ⟨applyReset_invariant (s := State.reset) rfl, fun _ => applyReset_invariant⟩

end Sys2Proof.Machine
end

section
/-! Who reads the flags (10_state R27): an instruction that is no conditional jump carries other flags through, or, being CMP,
overwrites them; and with `JUMP_FAMILY = absent` the decoder gives no conditional jump. -/

namespace Sys2Proof.Machine

/-! ### No named operation looks at the flags -/

section
variable (s : State) (f : Flags)

@[simp] theorem State.setFlags_setFlags (g : Flags) : (s.setFlags f).setFlags g = s.setFlags g := rfl
@[simp] theorem State.setX_setFlags (v : Vector Byte 8) : (s.setFlags f).setX v = (s.setX v).setFlags f := rfl
@[simp] theorem State.setMem_setFlags (v : Memory) : (s.setFlags f).setMem v = (s.setMem v).setFlags f := rfl
@[simp] theorem State.advance_setFlags (n : PcWord) : (s.setFlags f).advance n = (s.advance n).setFlags f := rfl
@[simp] theorem State.goto_setFlags (v : Byte) : (s.setFlags f).goto v = (s.goto v).setFlags f := rfl
@[simp] theorem State.emit_setFlags (e : Event) : (s.setFlags f).emit e = (s.emit e).setFlags f := rfl
@[simp] theorem State.decSp_setFlags : (s.setFlags f).decSp = s.decSp.setFlags f := rfl
@[simp] theorem State.incSp_setFlags : (s.setFlags f).incSp = s.incSp.setFlags f := rfl
@[simp] theorem State.takeFault_setFlags (r : Raise) : (s.setFlags f).takeFault r = (s.takeFault r).setFlags f := rfl
@[simp] theorem State.sp_setFlags : (s.setFlags f).sp = s.sp := rfl
@[simp] theorem State.returnAddr_setFlags : (s.setFlags f).returnAddr = s.returnAddr := rfl
@[simp] theorem State.readReg_setFlags (i : Byte) : (s.setFlags f).readReg i = s.readReg i := rfl
@[simp] theorem readPair_setFlags (a b : Byte) : readPair (s.setFlags f) a b = readPair s a b := rfl
@[simp] theorem fetch_setFlags : fetch (s.setFlags f) = fetch s := rfl

@[simp] theorem State.writeReg_setFlags (i v : Byte) :
    (s.setFlags f).writeReg i v = (s.writeReg i v).map fun t => t.setFlags f := by
  rcases s.writeReg_cases i v with ⟨hi, h⟩ | ⟨hi, h⟩ <;> rw [h]
  · exact State.writeReg_of_lt _ v hi
  · exact State.writeReg_of_ge _ v hi

end

/-! ### Other flags before an instruction are other flags after it -/

/-- The outcome with other flags. -/
def withFlags (f : Flags) : Host.Outcome State Fault Refusal → Host.Outcome State Fault Refusal
  | .next t => .next (t.setFlags f)
  | .fault r => .fault r
  | .refused r => .refused r

@[simp] theorem withFlags_next (f : Flags) (t : State) : withFlags f (.next t) = .next (t.setFlags f) := rfl

/-- The operation commutes with a replacement of the flags. -/
def CarriesFlags (run : State → Host.Outcome State Fault Refusal) : Prop :=
  ∀ (s : State) (f : Flags), run (s.setFlags f) = withFlags f (run s)

theorem aluBinary_carriesFlags (g : Nat → Nat → Nat) (a b : Byte) :
    CarriesFlags fun s => commit s (aluBinary g a b s) := by
  intro s f
  rcases readPair_cases s a b with ⟨ha, hb, _⟩ | ⟨i, h, _⟩
  · simp [aluBinary_of_lt _ _ ha hb, aluResult]
  · simp [aluBinary_error, h]

theorem aluDivide_carriesFlags (g : Nat → Nat → Nat) (a b : Byte) :
    CarriesFlags fun s => commit s (aluDivide g a b s) := by
  intro s f
  rcases readPair_cases s a b with ⟨ha, hb, _⟩ | ⟨i, h, _⟩
  · by_cases h0 : s.x[b.toNat] = 0
    · simp [aluDivide_of_zero, ha, hb, h0]
    · simp [aluDivide_of_ne g s ha hb h0, aluDivide_of_ne g (s.setFlags f) ha hb h0, aluResult]
  · simp [aluDivide_error, h]

theorem aluIncDec_carriesFlags (g : Nat → Nat) (a b : Byte) :
    CarriesFlags fun s => commit s (aluIncDec g a b s) := by
  intro s f
  cases hm : s.cfg.incdecMode with
  | referenceNoop => simp [aluIncDec_noop, hm]
  | intended =>
    by_cases ht : (incDecTarget a b).toNat < 8
    · simp [aluIncDec_of_lt, hm, ht, aluResult]
    · simp [aluIncDec_of_ge, hm, Nat.le_of_not_lt ht]

theorem jumpIf_carriesFlags (taken : Bool) (r : Byte) : CarriesFlags fun s => commit s (jumpIf taken r s) := by
  intro s f
  by_cases hr : r.toNat < 8
  · cases taken <;> simp [jumpIf_of_lt, hr]
  · simp [jumpIf_of_ge, Nat.le_of_not_lt hr]

theorem execLdi_carriesFlags (r imm : Byte) : CarriesFlags (execLdi r imm) := by
  intro s f
  rcases s.writeReg_cases r imm with ⟨_, h⟩ | ⟨_, h⟩ <;>
    simp [execLdi, h, bind, Except.bind, pure, Except.pure, Except.map]

theorem execPush_carriesFlags (r : Byte) : CarriesFlags (execPush r) := by
  intro s f
  rcases s.decSp.readReg_cases r with ⟨_, h⟩ | ⟨_, h⟩ <;>
    simp [execPush, h, bind, Except.bind, pure, Except.pure]

theorem execPop_carriesFlags (r : Byte) : CarriesFlags (execPop r) := by
  intro s f
  rcases s.writeReg_cases r (s.mem.read s.sp.toNat) with ⟨_, h⟩ | ⟨_, h⟩ <;>
    simp [execPop, h, bind, Except.bind, pure, Except.pure, Except.map]

theorem execCall_carriesFlags (r : Byte) : CarriesFlags (execCall r) := by
  intro s f
  by_cases hret : 255 < s.returnAddr.toNat
  · simp [execCall, hret, bind, Except.bind, throw, throwThe, MonadExceptOf.throw]
  · rcases (s.decSp.setMem (s.mem.write s.pushAddr.toNat (s.returnAddr.setWidth 8))).readReg_cases r with
      ⟨_, h⟩ | ⟨_, h⟩ <;>
    simp [execCall, hret, h, bind, Except.bind, pure, Except.pure]

theorem execRet_carriesFlags : CarriesFlags execRet := by
  intro s f
  simp [execRet_eq]

theorem execPrn_carriesFlags (r : Byte) : CarriesFlags (execPrn r) := by
  intro s f
  rcases s.readReg_cases r with ⟨_, h⟩ | ⟨_, h⟩ <;>
    simp [execPrn, h, bind, Except.bind, pure, Except.pure]

/-- CMP overwrites the flags where it completes, and carries them through where it faults. -/
theorem execCmp_setFlags (a b : Byte) (s : State) (f : Flags) :
    execCmp a b (s.setFlags f) = execCmp a b s ∨ execCmp a b (s.setFlags f) = withFlags f (execCmp a b s) := by
  rcases readPair_cases s a b with ⟨_, _, h⟩ | ⟨_, h, _⟩
  · exact .inl (by simp [execCmp, h, bind, Except.bind, pure, Except.pure])
  · exact .inr (by simp [execCmp, h, bind, Except.bind])

/-- An instruction that is no conditional jump carries other flags through, or overwrites them. -/
theorem exec_setFlags {i : Instr} (hi : readsFlags i = false) (s : State) (f : Flags) :
    exec i (s.setFlags f) = exec i s ∨ exec i (s.setFlags f) = withFlags f (exec i s) := by
  cases i with
  | cmp a b => exact execCmp_setFlags a b s f
  | jeq | jne | jgt | jlt | jle | jge => cases hi
  | add a b | sub a b | mul a b | and a b | or a b | xor a b | shl a b | shr a b =>
    exact .inr (aluBinary_carriesFlags _ a b s f)
  | div a b | mod a b => exact .inr (aluDivide_carriesFlags _ a b s f)
  | inc a b | dec a b => exact .inr (aluIncDec_carriesFlags _ a b s f)
  | jmp r => exact .inr (jumpIf_carriesFlags true r s f)
  | ldi r imm => exact .inr (execLdi_carriesFlags r imm s f)
  | push r => exact .inr (execPush_carriesFlags r s f)
  | pop r => exact .inr (execPop_carriesFlags r s f)
  | call r => exact .inr (execCall_carriesFlags r s f)
  | ret => exact .inr (execRet_carriesFlags s f)
  | prn r => exact .inr (execPrn_carriesFlags r s f)
  | not | hlt | nop => exact .inr rfl
  | int | iret | ld | st | pra | anyOtherByte => exact .inr rfl

theorem exec_next_setFlags {i : Instr} {s t : State} (hi : readsFlags i = false) (f : Flags) (h : exec i s = .next t) :
    ∃ g : Flags, exec i (s.setFlags f) = .next (t.setFlags g) := by
  rcases exec_setFlags hi s f with he | he <;> rw [he, h]
  · exact ⟨t.flags, rfl⟩
  · exact ⟨f, rfl⟩

/-- Settles O24: other flags are carried through or overwritten. -/
theorem flagsReadOnlyByConditionalJumps : Obligations.FlagsReadOnlyByConditionalJumps := by
  unfold Obligations.FlagsReadOnlyByConditionalJumps
  exact fun i s t f hi h => exec_next_setFlags hi f h

/-! ### Without the jump family -/

theorem isJump_of_readsFlags {i : Instr} (hi : readsFlags i = true) : ∃ o, i.opcode = some o ∧ o.isJump = true := by
  cases i with
  | jeq | jne | jgt | jlt | jle | jge => exact ⟨_, rfl, rfl⟩
  | _ => cases hi

theorem Config.names_of_absent {c : Config} (hc : c.jumpFamily = .absent) (o : Opcode) : c.names o = !o.isJump := by
  simp [Config.names, hc]

/-- With `JUMP_FAMILY = absent` no conditional jump is fetched (30_encoding R63). -/
theorem readsFlags_eq_false_of_fetch {s : State} {i : Instr} (hc : s.cfg.jumpFamily = .absent) (hf : fetch s = .ok i) :
    readsFlags i = false := by
  rw [← Bool.not_eq_true]
  intro hi
  obtain ⟨o, ho, hjump⟩ := isJump_of_readsFlags hi
  have hnames := (fetch_ok hf).2 o ho
  simp [Config.names_of_absent hc, hjump] at hnames

/-- With `JUMP_FAMILY = absent` a step from other flags differs at most in the flags. -/
theorem step_setFlags {s t : State} (hc : s.cfg.jumpFamily = .absent) (f : Flags) (h : step s = .next t) :
    ∃ g : Flags, step (s.setFlags f) = .next (t.setFlags g) := by
  rcases step_cases s with ⟨hstop, hs⟩ | ⟨hrun, i, hf, hs⟩ | ⟨hrun, r, hf, hs⟩
  · rw [hs] at h
    cases h
    exact ⟨f, step_of_stopped (s := s.setFlags f) hstop⟩
  · rw [step_of_fetch (s := s.setFlags f) hrun hf]
    exact exec_next_setFlags (readsFlags_eq_false_of_fetch hc hf) f (hs ▸ h)
  · rw [step_of_fetch_error (s := s.setFlags f) hrun hf]
    rw [hs] at h
    cases h
    exact ⟨f, rfl⟩

/-- Settles O25, by induction on the number of steps. -/
theorem absentJumpFamilyHidesFlags : Obligations.AbsentJumpFamilyHidesFlags := by
  unfold Obligations.AbsentJumpFamilyHidesFlags
  intro n
  induction n with
  | zero =>
    intro s t f _ h
    cases h
    exact ⟨f, rfl⟩
  | succ n ih =>
    intro s t f hc h
    obtain ⟨u, hu, hcfg⟩ := step_nextUnder s
    obtain ⟨g, hg⟩ := step_setFlags hc f hu
    rw [run_succ hu] at h
    obtain ⟨g', hg'⟩ := ih u t g (hcfg ▸ hc) h
    exact ⟨g', (run_succ hg n).trans hg'⟩

end Sys2Proof.Machine
end

section
/-! Memory as the program sees it (spec/20_memory.md): the bytes of an instruction at ascending addresses are what a step runs
(R43), and an instruction changes no byte but the one it stores at the new SP (R42, R45). -/

namespace Sys2Proof

/-! ### The decoder reads back what the encoder writes (30_encoding R61, R65) -/

theorem encode_length (c : Config) (i : Instr) : (encode c i).length = i.size := by cases i <;> rfl

theorem Instr.size_le (i : Instr) : i.size ≤ 3 := by
  unfold Instr.size Instr.length
  cases i.cls <;> decide

theorem eq_anyOtherByte_of_opcode_none {i : Instr} (h : i.opcode = none) : ∃ op, i = .anyOtherByte op := by
  cases i with
  | anyOtherByte op => exact ⟨op, rfl⟩
  | _ => cases h

/-- An instruction that has an opcode is well-formed exactly where the decoder knows that opcode. -/
theorem wellFormed_of_opcode {i : Instr} {o : Opcode} (h : i.opcode = some o) (c : Config) : WellFormed c i = c.names o := by
  cases i with
  | anyOtherByte => cases h
  | _ => cases h; rfl

/-- The encoding of an instruction with an opcode is the opcode's byte and then the operand bytes that the opcode reads. -/
theorem encode_of_opcode {i : Instr} {o : Opcode} (h : i.opcode = some o) (c : Config) :
    ∃ operands, encode c i = c.opcodeMap.byte o :: operands ∧
      ∀ rest, decodeOperands o (operands ++ rest) = .ok (i, rest) := by
  cases i with
  | anyOtherByte => cases h
  | _ => cases h; exact ⟨_, rfl, fun _ => rfl⟩

/-- With distinct opcode bytes, a well-formed instruction is read back from its encoding, whatever bytes follow. -/
theorem decode_encode_append {c : Config} {i : Instr} (hd : c.opcodeMap.distinct = true) (hw : WellFormed c i = true)
    (rest : List Byte) : decode c (encode c i ++ rest) = .ok (i, rest) := by
  cases ho : i.opcode with
  | none =>
    obtain ⟨op, rfl⟩ := eq_anyOtherByte_of_opcode_none ho
    exact decode_unknown (wellFormed_anyOtherByte.1 hw) rest
  | some o =>
    obtain ⟨operands, henc, hdec⟩ := encode_of_opcode ho c
    rw [wellFormed_of_opcode ho] at hw
    rw [henc, List.cons_append, decode_known (Config.opcodeOf_byte hd hw), hdec]

end Sys2Proof

namespace Sys2Proof.Machine

/-! ### The instruction that lies in memory is the one that runs -/

/-- Bytes that lie in memory at ascending addresses from `a` are the first that are read from `a`. -/
theorem Memory.bytesFrom_of_stored {m : Memory} {bs : List Byte} {a : Nat} (hin : a + bs.length ≤ memSize)
    (hst : ∀ (k : Nat) (b : Byte), bs[k]? = some b → m.read (a + k) = b) (n : Nat) :
    m.bytesFrom a (bs.length + n) = bs ++ m.bytesFrom (a + bs.length) n := by
  induction bs generalizing a with
  | nil => simp
  | cons b bs ih =>
    rw [List.length_cons] at hin ⊢
    have hhead : m.read a = b := hst 0 b rfl
    have htail : m.bytesFrom (a + 1) (bs.length + n) = bs ++ m.bytesFrom (a + 1 + bs.length) n :=
      ih (by omega) fun k b' hk => by
        rw [Nat.add_assoc, Nat.add_comm 1 k]
        exact hst (k + 1) b' hk
    rw [Nat.add_right_comm, m.bytesFrom_of_lt _ (by omega), hhead, htail, List.cons_append,
      Nat.add_comm bs.length 1, Nat.add_assoc]

theorem fetch_of_decode {s : State} {i : Instr} {rest : List Byte}
    (h : decode s.cfg (s.mem.bytesFrom s.pc.toNat 3) = .ok (i, rest)) : fetch s = .ok i := by
  simp [fetch, h]

/-- A well-formed instruction whose encoding lies in memory at the pc is the one that is fetched. -/
theorem fetch_of_stored {s : State} {i : Instr} (hd : s.cfg.opcodeMap.distinct = true) (hw : WellFormed s.cfg i = true)
    (hin : s.pc.toNat + (encode s.cfg i).length ≤ memSize)
    (hst : ∀ (k : Nat) (b : Byte), (encode s.cfg i)[k]? = some b → s.mem.read (s.pc.toNat + k) = b) :
    fetch s = .ok i := by
  have hlen : (encode s.cfg i).length ≤ 3 := encode_length s.cfg i ▸ i.size_le
  have hbytes := Memory.bytesFrom_of_stored hin hst (3 - (encode s.cfg i).length)
  rw [Nat.add_sub_cancel' hlen] at hbytes
  exact fetch_of_decode (hbytes ▸ decode_encode_append hd hw _)

/-- Settles O10: the stored bytes are the ones fetched, and the decoder reads the instruction back from them. -/
theorem stepRunsStoredInstruction : Obligations.StepRunsStoredInstruction := by
  unfold Obligations.StepRunsStoredInstruction
  intro s i hrun hd hw hin hst
  exact step_of_fetch hrun (fetch_of_stored hd hw hin hst)

/-! ### The one byte an instruction can change -/

/-- Only PUSH and CALL store, at the new SP; every other byte of memory reads as before (20_memory R42). -/
theorem Completion.mem_read_eq {s t : State} {i : Instr} (h : Completion s i t) {a : Nat} (ha : storeAddr s i ≠ some a) :
    t.mem.read a = s.mem.read a := by
  cases h with
  | push r v hi | call r v _ hi =>
    subst hi
    exact Memory.read_write_other _ v fun e => ha (congrArg some e.symm)
  | _ => rfl

/-- Settles O23: a completion stores at most the one byte, and fault entry none. -/
theorem memoryChangedOnlyAtStackStore : Obligations.MemoryChangedOnlyAtStackStore := by
  unfold Obligations.MemoryChangedOnlyAtStackStore
  intro i s t h a ha
  rcases exec_next h with hc | ⟨r, _, rfl⟩
  · exact hc.mem_read_eq ha
  · rfl

end Sys2Proof.Machine
end

section
/-! The encoding (spec/30_encoding.md): decoder and encoder are inverse to each other, the opcode byte fixes the class and the
length (R65, R66), and what a step does for each thing a fetch can give: the decoded instruction (R72), a stall (R67), or
MEM_RANGE with the first byte beyond memory (R72, R73). -/

namespace Sys2Proof

/-! ### The decoder and the encoder are inverse to each other -/

/-- Settles O1: the opcode byte is looked up again, and the opcode's operand bytes are read back. -/
theorem decodeEncodeRoundTrip : Obligations.DecodeEncodeRoundTrip := by
  unfold Obligations.DecodeEncodeRoundTrip
  exact fun _ _ rest hd hw => decode_encode_append hd hw rest

/-- The bytes a dispatched opcode reads are the operand bytes the encoder writes behind it. -/
theorem encode_append_of_decodeOperands {o : Opcode} {bs rest : List Byte} {i : Instr}
    (h : decodeOperands o bs = .ok (i, rest)) (c : Config) : encode c i ++ rest = c.opcodeMap.byte o :: bs := by
  cases o with
  | nop | hlt | ret | int | iret | ld | st | pra => cases h; rfl
  | push | pop | prn | call | jmp | jeq | jne | jgt | jlt | jle | jge =>
    obtain ⟨r, rfl, rfl⟩ := oneOperand_ok h
    rfl
  | inc | dec | not | ldi | add | sub | mul | div | mod | cmp | and | or | xor | shl | shr =>
    obtain ⟨a, b, rfl, rfl⟩ := twoOperands_ok h
    rfl

/-- What the decoder reads is well-formed, and it read the bytes of its encoding. -/
theorem wellFormed_and_eq_encode_of_decode {c : Config} {bs rest : List Byte} {i : Instr}
    (h : decode c bs = .ok (i, rest)) : WellFormed c i = true ∧ bs = encode c i ++ rest := by
  cases bs with
  | nil => cases h
  | cons op bs =>
    cases ho : c.opcodeOf op with
    | none =>
      rw [decode_unknown ho] at h
      cases h
      exact ⟨wellFormed_anyOtherByte.2 ho, rfl⟩
    | some o =>
      rw [decode_known ho] at h
      obtain ⟨hnames, hbyte⟩ := Config.opcodeOf_some ho
      exact ⟨(wellFormed_of_opcode (decodeOperands_ok h).1 c).trans hnames,
        hbyte ▸ (encode_append_of_decodeOperands h c).symm⟩

/-- Settles O2: a byte of no known opcode is its own encoding; a known opcode's byte and operand bytes are the encoder's. -/
theorem decodedBytesAreTheEncoding : Obligations.DecodedBytesAreTheEncoding := by
  unfold Obligations.DecodedBytesAreTheEncoding
  exact fun _ _ _ _ h => wellFormed_and_eq_encode_of_decode h

/-! ### The class of an opcode byte (30_encoding R65) -/

theorem Config.classOf_known {c : Config} {op : Byte} {o : Opcode} (h : c.opcodeOf op = some o) : c.classOf op = o.cls := by
  simp [Config.classOf, h]

theorem Config.classOf_unknown {c : Config} {op : Byte} (h : c.opcodeOf op = none) : c.classOf op = .unrecognised := by
  simp [Config.classOf, h]

theorem Instr.cls_of_opcode {i : Instr} {o : Opcode} (h : i.opcode = some o) : i.cls = o.cls := by
  simp [Instr.cls, h]

/-- What is decoded from a byte has that byte's class. -/
theorem decode_cls {c : Config} {op : Byte} {bs rest : List Byte} {i : Instr} (h : decode c (op :: bs) = .ok (i, rest)) :
    i.cls = c.classOf op := by
  cases ho : c.opcodeOf op with
  | none =>
    rw [decode_unknown ho] at h
    cases h
    exact (Config.classOf_unknown ho).symm
  | some o =>
    rw [decode_known ho] at h
    rw [Config.classOf_known ho, Instr.cls_of_opcode (decodeOperands_ok h).1]

theorem Instr.size_of_length {i : Instr} {n : Nat} (h : i.length = some n) : i.size = n := by
  simp [Instr.size, h]

theorem Instr.size_of_length_none {i : Instr} (h : i.length = none) : i.size = 1 := by
  simp [Instr.size, h]

/-- An instruction of one byte is its opcode byte; the decoder leaves everything behind it. -/
theorem decode_rest_of_size_one {c : Config} {op : Byte} {bs rest : List Byte} {i : Instr}
    (h : decode c (op :: bs) = .ok (i, rest)) (hi : i.size = 1) : rest = bs := by
  obtain ⟨b, hb⟩ := List.length_eq_one_iff.1 ((encode_length c i).trans hi)
  have hbytes := (wellFormed_and_eq_encode_of_decode h).2
  rw [hb] at hbytes
  exact (List.cons.inj hbytes).2.symm

/-- Three bytes are enough for every instruction. -/
theorem exists_decode_of_three_le {c : Config} {bs : List Byte} (hlen : 3 ≤ bs.length) :
    ∃ i rest, decode c bs = .ok (i, rest) := by
  cases h : decode c bs with
  | ok p => exact ⟨p.1, p.2, rfl⟩
  | error e => exact absurd (decode_error h).2 (Nat.not_lt.2 hlen)

/-- Settles O4: the decoder dispatches on the opcode byte alone, and takes the bytes of the instruction's encoding. -/
theorem classFixesLength : Obligations.ClassFixesLength := by
  unfold Obligations.ClassFixesLength
  refine ⟨fun c op bs rest i h => ⟨decode_cls h, fun n hn => ?_, fun hnone => ?_⟩, fun c op a b bs => ?_⟩
  · rw [← Instr.size_of_length hn, (decode_ok h).1, List.length_cons, Nat.add_comm]
  · exact decode_rest_of_size_one h (Instr.size_of_length_none hnone)
  · exact exists_decode_of_three_le (by simp)

/-- An unrecognised byte decodes to an instruction without reading a byte behind it (30_encoding R67). -/
theorem exists_decode_of_unrecognised {c : Config} {op : Byte} (h : c.classOf op = .unrecognised) (bs : List Byte) :
    ∃ i, decode c (op :: bs) = .ok (i, bs) := by
  cases ho : c.opcodeOf op with
  | none => exact ⟨_, decode_unknown ho bs⟩
  | some o =>
    rw [Config.classOf_known ho] at h
    rw [decode_known ho]
    cases o with
    | int | iret | ld | st | pra => exact ⟨_, rfl⟩
    | _ => cases h

/-- With `JUMP_FAMILY = absent` the byte of a jump opcode is that of no opcode the decoder knows (30_encoding R63). -/
theorem Config.classOf_jump_of_absent {c : Config} {o : Opcode} (hc : c.jumpFamily = .absent)
    (hd : c.opcodeMap.distinct = true) (ho : o.isJump = true) : c.classOf (c.opcodeMap.byte o) = .unrecognised := by
  refine Config.classOf_unknown (Config.opcodeOf_none.2 fun p hp hbyte => ?_)
  rw [OpcodeMap.byte_inj hd hbyte, Machine.Config.names_of_absent hc, ho] at hp
  cases hp

end Sys2Proof

namespace Sys2Proof.Machine

/-! ### A stall -/

/-- Every unrecognised instruction stalls (30_encoding R67). -/
theorem exec_of_unrecognised {i : Instr} (h : i.cls = .unrecognised) (s : State) : exec i s = .next s := by
  cases i with
  | int | iret | ld | st | pra | anyOtherByte => rfl
  | _ => cases h

/-- The opcode byte at a pc in memory fixes the class of the fetched instruction. -/
theorem fetch_cls {s : State} {i : Instr} (hpc : s.pc.toNat < memSize) (h : fetch s = .ok i) :
    i.cls = s.cfg.classOf (s.mem.read s.pc.toNat) := by
  rcases fetch_cases s with ⟨j, rest, hd, hf⟩ | ⟨e, _, hf⟩ <;> rw [hf] at h
  · cases h
    rw [s.mem.bytesFrom_of_lt _ hpc] at hd
    exact decode_cls hd
  · cases h

/-- A step at an unrecognised byte in memory stalls. -/
theorem step_of_unrecognised {s : State} (hrun : s.fsm = .running) (hpc : s.pc.toNat < memSize)
    (hcls : s.cfg.classOf (s.mem.read s.pc.toNat) = .unrecognised) : step s = .next s := by
  obtain ⟨i, hd⟩ := exists_decode_of_unrecognised hcls (s.mem.bytesFrom (s.pc.toNat + 1) 2)
  rw [← s.mem.bytesFrom_of_lt 2 hpc] at hd
  have hf : fetch s = .ok i := fetch_of_decode hd
  rw [step_of_fetch hrun hf, exec_of_unrecognised ((fetch_cls hpc hf).trans hcls)]

/-- Settles O5: the byte decodes to an unrecognised instruction whatever follows it, also at the last byte of memory. -/
theorem unrecognisedOpcodeStalls : Obligations.UnrecognisedOpcodeStalls := by
  unfold Obligations.UnrecognisedOpcodeStalls
  exact fun _ => step_of_unrecognised

theorem isJump_of_mem_jumps :
    ∀ o ∈ [Opcode.jmp, .jeq, .jne, .jgt, .jlt, .jle, .jge], o.isJump = true := by decide

/-- Settles O8: the absent family leaves the jump bytes unrecognised. -/
theorem absentJumpFamilyStalls : Obligations.AbsentJumpFamilyStalls := by
  unfold Obligations.AbsentJumpFamilyStalls
  intro s o hrun hc hd hpc ho hbyte
  exact step_of_unrecognised hrun hpc (hbyte ▸ Config.classOf_jump_of_absent hc hd (isJump_of_mem_jumps o ho))

/-! ### Encodings under the default map (30_encoding R63) -/

/-- Under the default map a well-formed instruction is encoded as exactly the encoder's bytes. -/
theorem encodedAs_encode {i : Instr} (hw : WellFormed Config.default i = true) :
    EncodedAs i (encode Config.default i) := by
  have hd : Config.default.opcodeMap.distinct = true := by decide
  exact ⟨List.append_nil (encode Config.default i) ▸ decode_encode_append hd hw [], rfl⟩

/-- Settles O3: each instruction is well-formed, and its encoding is the byte sequence of the vector. -/
theorem specWordsDecode : Obligations.SpecWordsDecode := by
  unfold Obligations.SpecWordsDecode
  exact ⟨encodedAs_encode rfl, encodedAs_encode rfl, encodedAs_encode rfl, encodedAs_encode rfl, encodedAs_encode rfl,
    encodedAs_encode rfl, encodedAs_encode rfl, encodedAs_encode rfl, encodedAs_encode (by decide)⟩

/-- Settles O6: the encoding is the opcode byte alone, and execution is a stall. -/
theorem unrecognisedInstructionsChangeNothing : Obligations.UnrecognisedInstructionsChangeNothing := by
  unfold Obligations.UnrecognisedInstructionsChangeNothing
  refine ⟨?encodings, fun _ hw => encodedAs_encode hw, fun s => ?stalls⟩
  case encodings =>
    exact ⟨encodedAs_encode rfl, encodedAs_encode rfl, encodedAs_encode rfl, encodedAs_encode rfl, encodedAs_encode rfl⟩
  case stalls =>
    exact ⟨exec_of_unrecognised rfl s, exec_of_unrecognised rfl s, exec_of_unrecognised rfl s, exec_of_unrecognised rfl s,
      exec_of_unrecognised rfl s, fun _ => exec_of_unrecognised rfl s⟩

/-! ### What the fetch decides -/

/-- Settles O9: what the decoder reads at the pc is what is fetched. -/
theorem stepRunsDecodedInstruction : Obligations.StepRunsDecodedInstruction := by
  unfold Obligations.StepRunsDecodedInstruction
  exact fun _ _ _ hrun hd => step_of_fetch hrun (fetch_of_decode hd)

/-- In RUNNING, a fetch that reaches beyond memory is fault entry with the address as info. -/
theorem step_of_fetch_memRange {s : State} {a : Nat} (hrun : s.fsm = .running) (hf : fetch s = .error (memRange a)) :
    step s = .next { s with fsm := .faulted, fault := some ⟨.memRange, s.pc, BitVec.ofNat 9 a⟩ } :=
  step_of_fetch_error hrun hf

/-- Settles O11: the opcode byte itself is out of range, and the address is the pc. -/
theorem opcodeFetchBeyondMemoryFaults : Obligations.OpcodeFetchBeyondMemoryFaults := by
  unfold Obligations.OpcodeFetchBeyondMemoryFaults
  intro s hrun hpc
  rw [step_of_fetch_memRange hrun (fetch_of_ge hpc), BitVec.ofNat_toNat, BitVec.setWidth_eq]

/-- An instruction whose class is longer than what is left of memory is not fetched; the address raised is 256 (30_encoding
R73). -/
theorem fetch_of_length_gt {s : State} {n : Nat} (hpc : s.pc.toNat < memSize)
    (hn : (s.cfg.classOf (s.mem.read s.pc.toNat)).length = some n) (hlong : memSize < s.pc.toNat + n) :
    fetch s = .error (memRange memSize) := by
  cases hf : fetch s with
  | ok i =>
    have hfits : s.pc.toNat + i.size ≤ memSize := (fetch_ok hf).1
    have hsize : i.size = n := Instr.size_of_length ((congrArg OpClass.length (fetch_cls hpc hf)).trans hn)
    omega
  | error r => rw [fetch_error hf, Nat.max_eq_left hpc.le]

/-- Settles O12: a fetched instruction lies in memory whole, so this one is not fetched. -/
theorem operandFetchBeyondMemoryFaults : Obligations.OperandFetchBeyondMemoryFaults := by
  unfold Obligations.OperandFetchBeyondMemoryFaults
  intro s n k hrun hpc hn hk hedge
  have hlong : 256 < s.pc.toNat + n := by omega
  exact step_of_fetch_memRange hrun (fetch_of_length_gt hpc hn hlong)

/-- Settles O13: a step outside RUNNING does nothing, and reset enters RUNNING. -/
theorem stoppedMachineDoesNothing : Obligations.StoppedMachineDoesNothing := by
  unfold Obligations.StoppedMachineDoesNothing
  refine fun s => ⟨fun hstop => step_of_stopped ?_, rfl⟩
  rcases hstop with h | h <;> rw [h] <;> decide

end Sys2Proof.Machine
end

section
/-! The ALU (spec/40_alu.md): the rule of each operand form, said once for any operation of that form (R100), and the 8-bit
machine operations that the results are (R115). -/

namespace Sys2Proof.Machine

/-! ### Encoding and operand fetch, for an instruction of any format -/

/-- The class of a byte depends on the opcode map and the jump family alone. -/
theorem classOf_eq_default {c : Config} (hmap : c.opcodeMap = OpcodeMap.ls8) (hjump : c.jumpFamily = .present)
    (op : Byte) : c.classOf op = Config.default.classOf op := by
  obtain ⟨_, _, _⟩ := c
  cases hmap
  cases hjump
  rfl

/-- An instruction that is encoded with operand bytes has the length of its encoding (30_encoding R60). -/
theorem length_of_encodedAs {i : Instr} {bytes : List Byte} (henc : EncodedAs i bytes) (hbytes : 1 < bytes.length) :
    i.length = some bytes.length := by
  have hsize : i.size = bytes.length := by rw [← encode_length Config.default, henc.2]
  cases hlen : i.length with
  | none => rw [← hsize, Instr.size_of_length_none hlen] at hbytes; exact absurd hbytes (Nat.lt_irrefl 1)
  | some n => rw [← hsize, Instr.size_of_length hlen]

/-- One encoding with operand bytes fixes the length for every instruction of its opcode byte, so from near the end of memory
none of them is fetched (30_encoding R66, R73). -/
theorem operandFetchFaults_of_encodedAs {i : Instr} {op b : Byte} {bs : List Byte} (henc : EncodedAs i (op :: b :: bs)) :
    OperandFetchFaults op (op :: b :: bs).length := by
  intro s hrun hmap hjump hpc hlong hop
  have hlen : i.length = some (op :: b :: bs).length := length_of_encodedAs henc (by simp)
  have hcls : s.cfg.classOf (s.mem.read s.pc.toNat) = i.cls := by
    rw [hop, classOf_eq_default hmap hjump, decode_cls henc.1]
  exact step_of_fetch_memRange hrun (fetch_of_length_gt hpc (hcls ▸ hlen) hlong)

theorem faultsWith_regIndex {i : Instr} {s : State} {r : Byte} (h : exec i s = .next (s.takeFault (regIndex r))) :
    FaultsWith i s .regIndex r.toNat := by
  rw [FaultsWith, h, regIndex_eq, State.takeFault_eq]

theorem faultsWith_divZero {i : Instr} {s : State} {b : Byte} (h : exec i s = .next (s.takeFault (divZero b))) :
    FaultsWith i s .divZero b.toNat := by
  rw [FaultsWith, h, divZero, byte_setWidth, State.takeFault_eq]

/-! ### Two registers (40_alu R100) -/

/-- An instruction that passes on what `readPair` raises checks register `a`, and then register `b` (60_exceptions R202). -/
theorem registerFaults_of_readPair {mk : Byte → Byte → Instr}
    (h : ∀ s a b r, readPair s a b = .error r → exec (mk a b) s = .next (s.takeFault r)) :
    (∀ s a b, 8 ≤ a.toNat → FaultsWith (mk a b) s .regIndex a.toNat) ∧
      ∀ s a b, a.toNat < 8 → 8 ≤ b.toNat → FaultsWith (mk a b) s .regIndex b.toNat :=
  ⟨fun s _ b ha => faultsWith_regIndex (h _ _ _ _ (readPair_first_ge s b ha)),
    fun s _ _ ha hb => faultsWith_regIndex (h _ _ _ _ (readPair_second_ge s ha hb))⟩

/-- A two-register operation whose result is the byte `v` writes `v` to register `a`. -/
theorem commit_aluBinary {f : Nat → Nat → Nat} {s : State} {a b v : Byte} (ha : a.toNat < 8) (hb : b.toNat < 8)
    (hv : trunc8 (f s.x[a.toNat].toNat s.x[b.toNat].toNat) = v) :
    commit s (aluBinary f a b s) = .next (aluResult s a.toNat ha v) := by
  rw [aluBinary_of_lt f s ha hb, hv, commit_ok]

theorem commit_aluDivide {f : Nat → Nat → Nat} {s : State} {a b v : Byte} (ha : a.toNat < 8) (hb : b.toNat < 8)
    (h0 : s.x[b.toNat] ≠ 0) (hv : trunc8 (f s.x[a.toNat].toNat s.x[b.toNat].toNat) = v) :
    commit s (aluDivide f a b s) = .next (aluResult s a.toNat ha v) := by
  rw [aluDivide_of_ne f s ha hb h0, hv, commit_ok]

/-- An instruction of the form `aluBinary g` has the rule of every `f` that agrees with `g` modulo 256. -/
theorem binaryRule_of_exec {op : Byte} {mk : Byte → Byte → Instr} {f g : Nat → Nat → Nat}
    (henc : ∀ a b, EncodedAs (mk a b) [op, a, b])
    (hexec : ∀ a b s, exec (mk a b) s = commit s (aluBinary g a b s)) (hfg : ∀ m n, trunc8 (g m n) = trunc8 (f m n)) :
    BinaryRule op mk f := by
  refine ⟨henc, operandFetchFaults_of_encodedAs (henc 0 0), fun s a b ha hb => ?_,
    registerFaults_of_readPair fun s a b r h => ?_⟩
  · exact (hexec a b s).trans (commit_aluBinary ha hb (hfg _ _))
  · rw [hexec, aluBinary_error g s h, commit_error]

/-- An instruction of the form `aluDivide f` has the rule of `f`. -/
theorem divideRule_of_exec {op : Byte} {mk : Byte → Byte → Instr} {f : Nat → Nat → Nat}
    (henc : ∀ a b, EncodedAs (mk a b) [op, a, b])
    (hexec : ∀ a b s, exec (mk a b) s = commit s (aluDivide f a b s)) : DivideRule op mk f := by
  obtain ⟨hfirst, hsecond⟩ := registerFaults_of_readPair (mk := mk) fun s a b r h => by
    rw [hexec, aluDivide_error f s h, commit_error]
  refine ⟨henc, operandFetchFaults_of_encodedAs (henc 0 0), fun s a b ha hb h0 => ?_, hfirst, hsecond,
    fun s a b ha hb h0 => faultsWith_divZero ?_⟩
  · exact (hexec a b s).trans (commit_aluDivide ha hb h0 rfl)
  · rw [hexec, aluDivide_of_zero f s ha hb h0, commit_error]

/-- An instruction of the form `aluIncDec g` has the rule of every `f` that agrees with `g` modulo 256. -/
theorem incDecRule_of_exec {op : Byte} {mk : Byte → Byte → Instr} {f g : Nat → Nat}
    (henc : ∀ a b, EncodedAs (mk a b) [op, a, b])
    (hexec : ∀ a b s, exec (mk a b) s = commit s (aluIncDec g a b s)) (hfg : ∀ n, trunc8 (g n) = trunc8 (f n)) :
    IncDecRule op mk f := by
  refine ⟨henc, operandFetchFaults_of_encodedAs (henc 0 0), ?completes, ?faults, ?noop⟩
  case completes =>
    rintro s a b _ rfl hm ht
    rw [hexec, aluIncDec_of_lt g s hm ht, hfg, commit_ok]
    rfl
  case faults =>
    rintro s a b _ rfl hm ht
    exact faultsWith_regIndex (by rw [hexec, aluIncDec_of_ge g s hm ht, commit_error]; rfl)
  case noop =>
    intro s a b hm
    rw [hexec, aluIncDec_noop g s a b hm, commit_ok]
    rfl

/-! ### The results that the spec reduces modulo 256 -/

theorem trunc8_mod (n : Nat) : trunc8 (n % 256) = trunc8 n :=
  BitVec.eq_of_toNat_eq (by rw [trunc8, trunc8, BitVec.toNat_ofNat, BitVec.toNat_ofNat, Nat.mod_mod])

/-- Settles O26: the form `aluBinary` reduces the sum modulo 256. -/
theorem addRule : Obligations.AddRule := by
  unfold Obligations.AddRule
  exact binaryRule_of_exec (fun _ _ => encodedAs_encode rfl) (fun _ _ _ => rfl) fun _ _ => (trunc8_mod _).symm

/-- Settles O27: the form `aluBinary` reduces the difference modulo 256, lifted by 256 to stay natural. -/
theorem subRule : Obligations.SubRule := by
  unfold Obligations.SubRule
  exact binaryRule_of_exec (fun _ _ => encodedAs_encode rfl) (fun _ _ _ => rfl) fun _ _ => (trunc8_mod _).symm

/-- Settles O28: the form `aluBinary` keeps the low 8 bits of the product. -/
theorem mulRule : Obligations.MulRule := by
  unfold Obligations.MulRule
  exact binaryRule_of_exec (fun _ _ => encodedAs_encode rfl) (fun _ _ _ => rfl) fun _ _ => (trunc8_mod _).symm

/-- Settles O29: the form `aluDivide` checks both registers, and then the divisor. -/
theorem divRule : Obligations.DivRule := by
  unfold Obligations.DivRule
  exact divideRule_of_exec (fun _ _ => encodedAs_encode rfl) fun _ _ _ => rfl

/-- Settles O30: the form `aluDivide`, with the remainder. -/
theorem modRule : Obligations.ModRule := by
  unfold Obligations.ModRule
  exact divideRule_of_exec (fun _ _ => encodedAs_encode rfl) fun _ _ _ => rfl

/-- Settles O31: the form `aluIncDec` under both values of `INCDEC_MODE`. -/
theorem incRule : Obligations.IncRule := by
  unfold Obligations.IncRule
  exact incDecRule_of_exec (fun _ _ => encodedAs_encode rfl) (fun _ _ _ => rfl) fun _ => (trunc8_mod _).symm

/-- Settles O32: the form `aluIncDec`, where 255 is -1 modulo 256. -/
theorem decRule : Obligations.DecRule := by
  unfold Obligations.DecRule
  exact incDecRule_of_exec (fun _ _ => encodedAs_encode rfl) (fun _ _ _ => rfl) fun _ => (trunc8_mod _).symm

/-- Settles O34: the form `aluBinary`, with bitwise AND. -/
theorem andRule : Obligations.AndRule := by
  unfold Obligations.AndRule
  exact binaryRule_of_exec (fun _ _ => encodedAs_encode rfl) (fun _ _ _ => rfl) fun _ _ => rfl

/-- Settles O35: the form `aluBinary`, with bitwise OR. -/
theorem orRule : Obligations.OrRule := by
  unfold Obligations.OrRule
  exact binaryRule_of_exec (fun _ _ => encodedAs_encode rfl) (fun _ _ _ => rfl) fun _ _ => rfl

/-- Settles O36: the form `aluBinary`, with bitwise exclusive OR. -/
theorem xorRule : Obligations.XorRule := by
  unfold Obligations.XorRule
  exact binaryRule_of_exec (fun _ _ => encodedAs_encode rfl) (fun _ _ _ => rfl) fun _ _ => rfl

/-- Settles O37: a left shift multiplies by a power of 2, of which the form `aluBinary` keeps the low 8 bits. -/
theorem shlRule : Obligations.ShlRule := by
  unfold Obligations.ShlRule
  refine binaryRule_of_exec (fun _ _ => encodedAs_encode rfl) (fun _ _ _ => rfl) fun va vb => ?_
  rw [trunc8_mod, Nat.shiftLeft_eq]

/-- Settles O38: a logical right shift divides by a power of 2. -/
theorem shrRule : Obligations.ShrRule := by
  unfold Obligations.ShrRule
  refine binaryRule_of_exec (fun _ _ => encodedAs_encode rfl) (fun _ _ _ => rfl) fun va vb => ?_
  rw [Nat.shiftRight_eq_div_pow]

/-! ### CMP and NOT -/

theorem execCmp_of_lt {s : State} {a b : Byte} (ha : a.toNat < 8) (hb : b.toNat < 8) :
    execCmp a b s = .next ((s.setFlags (compareFlags s.x[a.toNat] s.x[b.toNat])).advance 3) := by
  simp [execCmp, readPair_of_lt s ha hb, bind, Except.bind, pure, Except.pure]

theorem execCmp_error {s : State} {a b : Byte} {r : Raise} (h : readPair s a b = .error r) :
    execCmp a b s = .next (s.takeFault r) := by
  simp [execCmp, h, bind, Except.bind]

/-- Settles O33: the three flags decide the three comparisons, of which exactly one holds. -/
theorem cmpRule : Obligations.CmpRule := by
  unfold Obligations.CmpRule
  have henc (a b : Byte) : EncodedAs (.cmp a b) [0xA7, a, b] := encodedAs_encode rfl
  refine ⟨henc, operandFetchFaults_of_encodedAs (henc 0 0), fun s a b ha hb => ?_,
    registerFaults_of_readPair fun _ _ _ _ => execCmp_error⟩
  refine ⟨compareFlags s.x[a.toNat] s.x[b.toNat], execCmp_of_lt ha hb, decide_eq_true_iff, decide_eq_true_iff,
    decide_eq_true_iff, ?_⟩
  rcases compareFlags_cases s.x[a.toNat] s.x[b.toNat] with h | h | h <;> simp [h]

/-- NOT raises with its opcode byte in every state, whatever its operands (40_alu R114). -/
theorem faultsWith_unsupportedAlu (s : State) (a b : Byte) :
    FaultsWith (.not a b) s .unsupportedAlu s.cfg.opcodeMap.not.toNat := by
  show Host.Outcome.next (s.takeFault (unsupportedAlu s.cfg.opcodeMap.not)) = _
  rw [unsupportedAlu, byte_setWidth, State.takeFault_eq]

/-- Settles O39: fault entry in every state, and the default map gives the byte 0x69. -/
theorem notRule : Obligations.NotRule := by
  unfold Obligations.NotRule
  have henc (a b : Byte) : EncodedAs (.not a b) [0x69, a, b] := encodedAs_encode rfl
  refine ⟨henc, operandFetchFaults_of_encodedAs (henc 0 0), faultsWith_unsupportedAlu, fun s a b hmap => ?_⟩
  have hfault := faultsWith_unsupportedAlu s a b
  rwa [hmap] at hfault

/-! ### The results as 8-bit machine operations (40_alu R115) -/

/-- A byte that holds `n` modulo 256 is `n` truncated. -/
theorem trunc8_of_toNat_mod {n : Nat} {v : Byte} (h : v.toNat = n % 2 ^ 8) : trunc8 n = v :=
  BitVec.eq_of_toNat_eq (by rw [trunc8, BitVec.toNat_ofNat, h])

theorem trunc8_of_toNat {n : Nat} {v : Byte} (h : v.toNat = n) : trunc8 n = v :=
  trunc8_of_toNat_mod (by rw [← h, Nat.mod_eq_of_lt v.isLt])

theorem trunc8_sub (v w : Byte) : trunc8 (v.toNat + 256 - w.toNat) = v - w := by
  have hw : w.toNat < 256 := w.isLt
  refine trunc8_of_toNat_mod ?_
  rw [BitVec.toNat_sub]
  congr 1
  omega

/-- Settles O40: each result is the number that the bit-vector operation holds, modulo 256. -/
theorem aluIsModularArithmetic : Obligations.AluIsModularArithmetic := by
  unfold Obligations.AluIsModularArithmetic
  intro s a b ha hb result va vb
  refine ⟨?add, ?sub, ?mul, ?and, ?or, ?xor, ?shl, ?shr, fun h0 => ⟨?div, ?mod⟩⟩
  case add => exact commit_aluBinary ha hb (trunc8_of_toNat_mod (BitVec.toNat_add va vb))
  case sub => exact commit_aluBinary ha hb (trunc8_sub va vb)
  case mul => exact commit_aluBinary ha hb (trunc8_of_toNat_mod (BitVec.toNat_mul va vb))
  case and => exact commit_aluBinary ha hb (trunc8_of_toNat (BitVec.toNat_and va vb))
  case or => exact commit_aluBinary ha hb (trunc8_of_toNat (BitVec.toNat_or va vb))
  case xor => exact commit_aluBinary ha hb (trunc8_of_toNat (BitVec.toNat_xor va vb))
  case shl => exact commit_aluBinary ha hb (trunc8_of_toNat_mod BitVec.toNat_shiftLeft)
  case shr => exact commit_aluBinary ha hb (trunc8_of_toNat (BitVec.toNat_ushiftRight va vb.toNat))
  case div => exact commit_aluDivide ha hb h0 (trunc8_of_toNat BitVec.toNat_udiv)
  case mod => exact commit_aluDivide ha hb h0 (trunc8_of_toNat BitVec.toNat_umod)

end Sys2Proof.Machine
end

section
/-! HLT, PRN and NOP (spec/41_system.md): what each appends to the output, and where it leaves the pc. -/

namespace Sys2Proof.Machine

/-- A state that a step does not change is never left. -/
theorem run_of_step_eq_self {s : State} (h : step s = .next s) (n : Nat) : core.run n s = .next s := by
  induction n with
  | zero => rfl
  | succ n ih => rw [run_succ h, ih]

/-- Settles O41: the FSM is HALTED afterwards, and outside RUNNING a step does nothing. -/
theorem hltRule : Obligations.HltRule := by
  unfold Obligations.HltRule
  refine ⟨encodedAs_encode rfl, fun s => ⟨(s.emit .halt).setFsm .halted, rfl, rfl, fun n => ?_⟩⟩
  have hstop : ((s.emit .halt).setFsm .halted).fsm ≠ .running := by rw [State.setFsm_fsm]; decide
  exact run_of_step_eq_self (step_of_stopped hstop) n

theorem execPrn_of_lt (s : State) {r : Byte} (hr : r.toNat < 8) :
    execPrn r s = .next ((s.emit (.print s.x[r.toNat])).advance 2) := by
  rcases execPrn_cases s r with ⟨_, h⟩ | ⟨hge, _⟩
  · exact h
  · omega

theorem execPrn_of_ge (s : State) {r : Byte} (hr : 8 ≤ r.toNat) : execPrn r s = .next (s.takeFault (regIndex r)) := by
  rcases execPrn_cases s r with ⟨hlt, _⟩ | ⟨_, h⟩
  · omega
  · exact h

/-- Settles O42: the register check decides between the print and the fault entry. -/
theorem prnRule : Obligations.PrnRule := by
  unfold Obligations.PrnRule
  have henc (r : Byte) : EncodedAs (.prn r) [0x47, r] := encodedAs_encode rfl
  exact ⟨henc, operandFetchFaults_of_encodedAs (henc 0), fun s _ => execPrn_of_lt s,
    fun s _ hr => faultsWith_regIndex (execPrn_of_ge s hr)⟩

@[simp] theorem State.advance_pc (s : State) (n : PcWord) : (s.advance n).pc = s.pc + n := rfl

/-- Settles O43: from 255 the pc moves to 256, where there is no opcode byte to fetch (30_encoding R72). -/
theorem nopRule : Obligations.NopRule := by
  unfold Obligations.NopRule
  refine ⟨encodedAs_encode rfl, fun _ => rfl, fun s hrun hpc => ⟨s.advance 1, rfl, ?_⟩⟩
  have hnext : (s.advance 1).pc = 256 := by
    rw [State.advance_pc, hpc]
    rfl
  refine ⟨hnext, ?_⟩
  rw [opcodeFetchBeyondMemoryFaults (s.advance 1) hrun (by rw [hnext]; decide), hnext]

end Sys2Proof.Machine
end

section
/-! LDI, PUSH and POP (spec/42_load_stack.md): the register check, SP modulo 256, the rule of each instruction, and the round trip
of a value over the stack. -/

namespace Sys2Proof.Machine

/-- The two answers of an instruction that checks one register, as an answer for each valid and for each invalid index
(60_exceptions R201). -/
theorem answers_of_registerCheck {r : Byte} {completes : r.toNat < 8 → Prop} {faults : Prop}
    (h : (∃ hr, completes hr) ∨ (8 ≤ r.toNat ∧ faults)) : (∀ hr, completes hr) ∧ (8 ≤ r.toNat → faults) := by
  rcases h with ⟨hlt, h⟩ | ⟨hge, h⟩
  · exact ⟨fun _ => h, fun hge => absurd hlt (Nat.not_lt.2 hge)⟩
  · exact ⟨fun hlt => absurd hlt (Nat.not_lt.2 hge), fun _ => h⟩

/-! ### SP modulo 256 (10_state R24) -/

theorem byte_sub_one_eq_iff {v w : Byte} : v - 1 = w ↔ w.toNat = (v.toNat + 255) % 256 := by
  rw [eq_comm, ← BitVec.toNat_inj, BitVec.toNat_sub, Nat.add_comm]
  rfl

theorem byte_add_one_eq_iff {v w : Byte} : v + 1 = w ↔ w.toNat = (v.toNat + 1) % 256 := by
  rw [eq_comm, ← BitVec.toNat_inj, BitVec.toNat_add]
  rfl

/-- After the decrement R7 reads as the new SP, and every other register as before. -/
theorem State.decSp_getElem (s : State) {r : Byte} (hr : r.toNat < 8) :
    s.decSp.x[r.toNat] = if r = 7 then s.pushAddr else s.x[r.toNat] := by
  by_cases h7 : r = 7
  · subst h7
    exact Vector.getElem_set_self (by decide)
  · have hne : 7 ≠ r.toNat := fun h => h7 (BitVec.eq_of_toNat_eq h.symm)
    rw [if_neg h7]
    exact Vector.getElem_set_ne (by decide) hr hne

/-- A write to another register commutes with the increment of SP. -/
theorem State.incSp_setX_set (s : State) {j : Nat} (hj : j < 7) (v : Byte) :
    (s.setX (s.x.set j v)).incSp = s.setX ((s.x.set j v).set 7 (s.sp + 1)) := by
  rw [State.incSp, State.sp, State.setX_x, Vector.getElem_set_ne _ _ (Nat.ne_of_lt hj)]
  rfl

/-- A write to SP is what the increment then starts from. -/
theorem State.incSp_setSp (s : State) (v : Byte) : (s.setSp v).incSp = s.setSp (v + 1) := by
  rw [State.incSp, State.setSp_sp, State.setSp_eq, State.setSp_eq, State.setSp_eq, State.setX_x, Vector.set_set]
  rfl

/-- The register file when SP has been moved, register `k` written, and SP put back. -/
theorem getElem_set_of_sp_restored (x : Vector Byte 8) (sp v : Byte) {k j : Nat} (hk : k < 7) (hj : j < 8) :
    (((x.set 7 sp).set k v).set 7 x[7])[j] = if j = k then v else x[j] := by
  by_cases h7 : j = 7
  · subst h7
    rw [Vector.getElem_set_self, if_neg (Nat.ne_of_gt hk)]
  · rw [Vector.getElem_set_ne _ _ (Ne.symm h7), Vector.getElem_set, Vector.getElem_set_ne _ _ (Ne.symm h7)]
    exact if_congr eq_comm rfl rfl

/-! ### The rules -/

/-- Settles O45: the new SP is the address of the store, and R7 already holds it when the register is read. -/
theorem pushRule : Obligations.PushRule := by
  unfold Obligations.PushRule
  have henc (r : Byte) : EncodedAs (.push r) [0x45, r] := encodedAs_encode rfl
  refine ⟨henc, operandFetchFaults_of_encodedAs (henc 0), fun s r sp hsp hr => ?completes,
    fun s r hr => faultsWith_regIndex ((answers_of_registerCheck (execPush_cases s r)).2 hr)⟩
  case completes =>
    obtain rfl : s.pushAddr = sp := byte_sub_one_eq_iff.2 hsp
    refine ⟨s.mem.write s.pushAddr.toNat s.decSp.x[r.toNat],
      (answers_of_registerCheck (execPush_cases s r)).1 hr, ?_, fun a ha => Memory.read_write_other _ _ ha⟩
    rw [Memory.read_write_self, s.decSp_getElem hr]

/-- Settles O46: the increment comes after the write of the register, so POP R7 increments the popped byte. -/
theorem popRule : Obligations.PopRule := by
  unfold Obligations.PopRule
  have henc (r : Byte) : EncodedAs (.pop r) [0x46, r] := encodedAs_encode rfl
  have hpop (s : State) (r : Byte) := answers_of_registerCheck (execPop_cases s r)
  refine ⟨henc, operandFetchFaults_of_encodedAs (henc 0), fun s r sp hsp hr => ?other, fun s sp hsp => ?seven,
    fun s r hr => faultsWith_regIndex ((hpop s r).2 hr)⟩
  case other =>
    obtain rfl : s.sp + 1 = sp := byte_add_one_eq_iff.2 hsp
    rw [exec, (hpop s r).1 (Nat.lt_succ_of_lt hr), s.incSp_setX_set hr]
    rfl
  case seven =>
    obtain rfl : s.mem.read s.sp.toNat + 1 = sp := byte_add_one_eq_iff.2 hsp
    have hpop7 : exec (.pop 7) s = .next ((s.setSp (s.mem.read s.sp.toNat)).incSp.advance 2) := (hpop s 7).1 (by decide)
    rw [hpop7, s.incSp_setSp]
    rfl

/-- Settles O47: POP reads the cell that PUSH stored, and the increment of SP undoes the decrement. -/
theorem pushPopRoundTrip : Obligations.PushPopRoundTrip := by
  unfold Obligations.PushPopRoundTrip
  intro s r r' hr hr'
  obtain ⟨_, _, hpush, _⟩ := pushRule
  obtain ⟨_, _, hpop, _⟩ := popRule
  obtain ⟨m, hexec, hcell, _⟩ := hpush s r (s.x[7] - 1) (byte_sub_one_eq_iff.1 rfl) (Nat.lt_succ_of_lt hr)
  have hr7 : r ≠ 7 := by rintro rfl; exact absurd hr (by decide)
  rw [if_neg hr7] at hcell
  refine ⟨_, _, hexec, hpop _ r' s.x[7] ?restored hr', ?moved, ?sp, fun j hj hne => ?frame⟩
  case restored =>
    rw [Vector.getElem_set_self]
    exact byte_add_one_eq_iff.1 (BitVec.sub_add_cancel _ _)
  case moved =>
    refine (getElem_set_of_sp_restored _ _ _ hr' _).trans ?_
    rw [if_pos rfl, Vector.getElem_set_self, hcell]
  case sp => exact Vector.getElem_set_self _
  case frame => exact (getElem_set_of_sp_restored _ _ _ hr' hj).trans (if_neg hne)

/-- Settles O44: each of the eight registers is written alike, R7 included. -/
theorem ldiRule : Obligations.LdiRule := by
  unfold Obligations.LdiRule
  have henc (r v : Byte) : EncodedAs (.ldi r v) [0x82, r, v] := encodedAs_encode rfl
  have hldi (s : State) (r v : Byte) := answers_of_registerCheck (execLdi_cases s r v)
  exact ⟨henc, operandFetchFaults_of_encodedAs (henc 0 0), fun s r v => (hldi s r v).1,
    fun s r v hr => faultsWith_regIndex ((hldi s r v).2 hr)⟩

end Sys2Proof.Machine
end

section
/-! CALL and RET (spec/43_call_return.md): the return address and its range, the two faults in their order, the rule of each
instruction, and the return behind the call. -/

namespace Sys2Proof.Machine

/-! ### The return address -/

theorem State.ofNat_returnAddr (s : State) : BitVec.ofNat 9 (s.pc.toNat + 2) = s.returnAddr := by
  apply BitVec.eq_of_toNat_eq
  rw [State.returnAddr, BitVec.toNat_ofNat, BitVec.toNat_add]
  rfl

/-- Where `pc + 2` fits in 9 bits, the return address is that number. -/
theorem State.returnAddr_toNat {s : State} (h : s.pc.toNat + 2 < 512) : s.returnAddr.toNat = s.pc.toNat + 2 := by
  rw [← State.ofNat_returnAddr, BitVec.toNat_ofNat]
  exact Nat.mod_eq_of_lt h

theorem State.returnAddr_le {s : State} (h : s.pc.toNat + 2 ≤ 255) : s.returnAddr.toNat ≤ 255 := by
  rwa [State.returnAddr_toNat (by omega)]

/-- A return address that fits a byte cell is stored whole. -/
theorem State.returnAddr_setWidth_toNat {s : State} (h : s.pc.toNat + 2 ≤ 255) :
    (s.returnAddr.setWidth 8).toNat = s.pc.toNat + 2 := by
  rw [BitVec.toNat_setWidth, State.returnAddr_toNat (by omega)]
  exact Nat.mod_eq_of_lt (by omega)

/-! ### The answers of CALL -/

/-- The return address is checked before the register (60_exceptions R202). -/
theorem execCall_of_returnAddr_gt {s : State} (r : Byte) (h : 255 < s.returnAddr.toNat) :
    execCall r s = .next (s.takeFault (callReturnRange s.returnAddr)) := by
  rw [execCall, if_pos h]
  rfl

/-- Behind a return address in range CALL is an instruction that checks one register. -/
theorem execCall_of_returnAddr_le {s : State} (r : Byte) (h : s.returnAddr.toNat ≤ 255) :
    (∀ hr : r.toNat < 8, execCall r s =
        .next ((s.decSp.setMem (s.mem.write s.pushAddr.toNat (s.returnAddr.setWidth 8))).goto s.decSp.x[r.toNat])) ∧
      (8 ≤ r.toNat → execCall r s = .next (s.takeFault (regIndex r))) := by
  apply answers_of_registerCheck
  rcases execCall_cases s r with ⟨_, hdone⟩ | ⟨hgt, _⟩ | hfault
  · exact .inl hdone
  · exact absurd h (Nat.not_le.2 hgt)
  · exact .inr hfault

theorem faultsWith_callReturnRange {i : Instr} {s : State}
    (h : exec i s = .next (s.takeFault (callReturnRange s.returnAddr))) :
    FaultsWith i s .callReturnRange (s.pc.toNat + 2) := by
  rw [FaultsWith, h, State.takeFault_eq, callReturnRange, State.ofNat_returnAddr]

/-! ### The rules -/

/-- Settles O48: behind the check of the return address the new SP is the address of the store, and R7 already holds it when
the target is read. -/
theorem callRule : Obligations.CallRule := by
  unfold Obligations.CallRule
  have henc (r : Byte) : EncodedAs (.call r) [0x50, r] := encodedAs_encode rfl
  refine ⟨henc, operandFetchFaults_of_encodedAs (henc 0), fun s r sp hpc hsp hr => ?completes,
    fun s r hgt hpc => ?returnRange, fun s r hpc hr => ?register⟩
  case completes =>
    obtain rfl : s.pushAddr = sp := byte_sub_one_eq_iff.2 hsp
    refine ⟨s.mem.write s.pushAddr.toNat (s.returnAddr.setWidth 8), ?_, ?_, fun a ha => Memory.read_write_other _ _ ha⟩
    · rw [exec, (execCall_of_returnAddr_le r (State.returnAddr_le hpc)).1 hr, s.decSp_getElem hr, State.goto, byte_setWidth]
      rfl
    · rw [Memory.read_write_self, State.returnAddr_setWidth_toNat hpc]
  case returnRange =>
    exact faultsWith_callReturnRange
      (execCall_of_returnAddr_gt r (hgt.trans_eq (State.returnAddr_toNat hpc).symm))
  case register =>
    exact faultsWith_regIndex ((execCall_of_returnAddr_le r (State.returnAddr_le hpc)).2 hr)

/-- Settles O49: a read at SP is always in range, so RET has no fault. -/
theorem retRule : Obligations.RetRule := by
  unfold Obligations.RetRule
  refine ⟨encodedAs_encode rfl, fun s sp hsp => ?_⟩
  obtain rfl : s.sp + 1 = sp := byte_add_one_eq_iff.2 hsp
  rw [exec, execRet_eq, State.goto, byte_setWidth]
  rfl

/-- Settles O50: RET reads the return address that CALL stored, and the increment of SP undoes the decrement. -/
theorem callRetRoundTrip : Obligations.CallRetRoundTrip := by
  unfold Obligations.CallRetRoundTrip
  intro s r hpc hr
  obtain ⟨_, _, hcall, _⟩ := callRule
  obtain ⟨_, hret⟩ := retRule
  obtain ⟨m, hexec, hcell, _⟩ := hcall s r (s.x[7] - 1) hpc (byte_sub_one_eq_iff.1 rfl) hr
  refine ⟨_, hexec, fun u hsp hmem => ?_⟩
  rw [Vector.getElem_set_self] at hsp hmem
  refine ⟨_, hret u s.x[7] ?restored, ?resumed, Vector.getElem_set_self _⟩
  case restored =>
    rw [hsp]
    exact byte_add_one_eq_iff.1 (BitVec.sub_add_cancel _ _)
  case resumed =>
    show BitVec.ofNat 9 (u.mem.read u.x[7].toNat).toNat = s.returnAddr
    rw [hsp, hmem, hcell, State.ofNat_returnAddr]

end Sys2Proof.Machine
end

section
/-! The jump family (spec/44_jumps.md): the rule of a jump, said once for any condition (R160), and the condition of each
opcode. -/

namespace Sys2Proof.Machine

/-- The pc of a jump behind its register check, taken or not, as one write of the pc. -/
theorem ite_goto_advance (taken : Bool) (s : State) (v : Byte) :
    (if taken then s.goto v else s.advance 2) =
      { s with pc := if taken then BitVec.ofNat 9 v.toNat else s.pc + 2 } := by
  cases taken with
  | true => rw [if_pos rfl, if_pos rfl, State.goto, byte_setWidth]; rfl
  | false => rfl

/-- An instruction of the form `jumpIf` under `cond` has the rule of a jump on `cond`: the register is read, and so checked,
before the condition decides. -/
theorem jumpRule_of_exec {op : Byte} {mk : Byte → Instr} {cond : Flags → Bool} (henc : ∀ r, EncodedAs (mk r) [op, r])
    (hexec : ∀ r s, exec (mk r) s = commit s (jumpIf (cond s.flags) r s)) : JumpRule op mk cond := by
  refine ⟨henc, operandFetchFaults_of_encodedAs (henc 0), fun s r hr => ?completes,
    fun s r hr => faultsWith_regIndex ?fault⟩
  case completes => rw [hexec, jumpIf_of_lt _ s hr, commit_ok, ite_goto_advance]
  case fault => rw [hexec, jumpIf_of_ge _ s hr, commit_error]

/-- Settles O51: `condJmp` holds of every flags value, so the jump is always taken. -/
theorem jmpRule : Obligations.JmpRule := by
  unfold Obligations.JmpRule
  exact jumpRule_of_exec (fun _ => encodedAs_encode rfl) fun _ _ => rfl

/-- Settles O52: `condJeq` is the flag E. -/
theorem jeqRule : Obligations.JeqRule := by
  unfold Obligations.JeqRule
  exact jumpRule_of_exec (fun _ => encodedAs_encode rfl) fun _ _ => rfl

/-- Settles O53: `condJne` is the negated flag E. -/
theorem jneRule : Obligations.JneRule := by
  unfold Obligations.JneRule
  exact jumpRule_of_exec (fun _ => encodedAs_encode rfl) fun _ _ => rfl

/-- Settles O54: `condJgt` is the flag G. -/
theorem jgtRule : Obligations.JgtRule := by
  unfold Obligations.JgtRule
  exact jumpRule_of_exec (fun _ => encodedAs_encode rfl) fun _ _ => rfl

/-- Settles O55: `condJlt` is the flag L. -/
theorem jltRule : Obligations.JltRule := by
  unfold Obligations.JltRule
  exact jumpRule_of_exec (fun _ => encodedAs_encode rfl) fun _ _ => rfl

/-- Settles O56: `condJle` is L or E, the condition the spec takes from general knowledge (92_eei_decisions D5). -/
theorem jleRule : Obligations.JleRule := by
  unfold Obligations.JleRule
  exact jumpRule_of_exec (fun _ => encodedAs_encode rfl) fun _ _ => rfl

/-- Settles O57: `condJge` is G or E, the condition the spec takes from general knowledge (92_eei_decisions D5). -/
theorem jgeRule : Obligations.JgeRule := by
  unfold Obligations.JgeRule
  exact jumpRule_of_exec (fun _ => encodedAs_encode rfl) fun _ _ => rfl

end Sys2Proof.Machine
end

section
/-! Faults are precise (spec/60_exceptions.md R204): an instruction can only arrive in FAULTED by fault entry, which starts from
the state before it, and FAULTED is kept. -/

namespace Sys2Proof.Machine

/-- No completion moves the FSM to FAULTED. -/
theorem Completion.not_enters_faulted {s t : State} {i : Instr} (h : Completion s i t) (hs : s.fsm ≠ .faulted) :
    t.fsm ≠ .faulted := by
  rcases h.fsm_eq with hfsm | ⟨_, rfl⟩
  · exact hfsm ▸ hs
  · exact nofun

/-- An instruction that ends in FAULTED has entered a fault from the state before it. -/
theorem exec_enters_faulted {i : Instr} {s t : State} (hs : s.fsm ≠ .faulted) (h : exec i s = .next t)
    (ht : t.fsm = .faulted) :
    ∃ cause info, t = { s with fsm := .faulted, fault := some ⟨cause, s.pc, info⟩ } := by
  rcases exec_next h with hc | ⟨r, _, rfl⟩
  · exact absurd ht (hc.not_enters_faulted hs)
  · exact ⟨r.cause, r.info, s.takeFault_eq r⟩

/-- There is no way on from FAULTED but reset (60_exceptions R205). -/
theorem run_of_faulted {s : State} (hs : s.fsm = .faulted) (n : Nat) : core.run n s = .next s :=
  run_of_step_eq_self (step_of_stopped (by rw [hs]; decide)) n

/-- Settles O18: only fault entry, by the instruction or by its fetch, leads to FAULTED, and it starts from the state before
the instruction, so nothing the instruction wrote is left. -/
theorem faultsArePrecise : Obligations.FaultsArePrecise := by
  unfold Obligations.FaultsArePrecise
  exact ⟨fun i s t => exec_enters_faulted,
    fun s t hrun h ht => ⟨(step_faulted_iff hrun h).1 ht, run_of_faulted ht⟩⟩

end Sys2Proof.Machine
end

section
/-! Reset, boot and progress (spec/70_reset_and_hazards.md): what `rst` restores, what the loader leaves in memory, that there is
always a next state, and that a stall is never left. -/

namespace Sys2Proof.Machine

/-! ### Progress -/

/-- Settles O7: the first stall leaves the state as it was, so the next step stalls again. -/
theorem stallIsPermanent : Obligations.StallIsPermanent := by
  unfold Obligations.StallIsPermanent
  exact fun _ hrun hpc hcls => run_of_step_eq_self (step_of_unrecognised hrun hpc hcls)

/-- Settles O14: a fault is a next state too, so every instruction, and with it every step, has one. -/
theorem everyStepAnswersNext : Obligations.EveryStepAnswersNext := by
  unfold Obligations.EveryStepAnswersNext
  constructor
  · intro i s
    obtain ⟨t, ht, _⟩ := exec_nextUnder i s
    exact ⟨t, ht⟩
  · intro s
    obtain ⟨t, ht, _⟩ := step_nextUnder s
    exact ⟨t, ht⟩

/-! ### Boot -/

theorem Memory.writeBytes_cons (m : Memory) {a : Nat} (b : Byte) (bs : List Byte) (ha : a < memSize) :
    m.writeBytes a (b :: bs) = (m.write a b).writeBytes (a + 1) bs := by
  simp [Memory.writeBytes, memWrite, ha]

/-- Stored bytes leave the addresses below them alone. -/
theorem Memory.read_writeBytes_below {bs : List Byte} {m : Memory} {a addr : Nat} (hfit : a + bs.length ≤ memSize)
    (hlt : addr < a) : (m.writeBytes a bs).read addr = m.read addr := by
  induction bs generalizing m a with
  | nil => rfl
  | cons b bs ih =>
    rw [List.length_cons] at hfit
    rw [m.writeBytes_cons b bs (by omega), ih (by omega) (by omega), m.read_write_other b (by omega)]

/-- From their address on, stored bytes are read back in order, and memory is as before behind the last one. -/
theorem Memory.read_writeBytes {bs : List Byte} {m : Memory} {a : Nat} (hfit : a + bs.length ≤ memSize) (k : Nat) :
    (m.writeBytes a bs).read (a + k) = bs.getD k (m.read (a + k)) := by
  induction bs generalizing m a k with
  | nil => rfl
  | cons b bs ih =>
    rw [List.length_cons] at hfit
    rw [m.writeBytes_cons b bs (by omega)]
    cases k with
    | zero => rw [Memory.read_writeBytes_below (by omega) (by omega), Nat.add_zero, m.read_write_self, List.getD_cons_zero]
    | succ k =>
      have hk : a + (k + 1) = a + 1 + k := by omega
      rw [hk, ih (by omega), List.getD_cons_succ, m.read_write_other b (by omega)]

/-- Settles O59: the image is stored from address 0 on into memory that reads 0 everywhere. -/
theorem bootImageIsInMemory : Obligations.BootImageIsInMemory := by
  unfold Obligations.BootImageIsInMemory
  intro c image hlen
  refine ⟨Memory.writeBytes_wf image rfl, fun i => ?_, rfl⟩
  have hread := Memory.read_writeBytes (m := []) (a := 0) (bs := image) (by rwa [Nat.zero_add]) i
  rwa [Nat.zero_add] at hread

/-! ### Reset -/

/-- Every register below SP is 0 after reset (10_state R35). -/
theorem State.applyReset_x_of_lt (s : State) : ∀ (j : Nat) (hj : j < 7), s.applyReset.x[j] = 0 := by
  show ∀ (j : Nat) (hj : j < 7), State.reset.x[j] = 0
  decide

/-- Settles O58: the state after power-on is the reset of itself, and reset takes every field but the configuration and memory
from it. -/
theorem resetRestoresCoreState : Obligations.ResetRestoresCoreState := by
  unfold Obligations.ResetRestoresCoreState
  refine ⟨fun _ => rfl, Memory.read_nil, fun t ht => ?_⟩
  obtain ⟨s, rfl⟩ : ∃ s : State, t = s.applyReset := ht.elim (fun h => ⟨State.reset, h⟩) id
  exact ⟨s.applyReset_x_of_lt, rfl, rfl, rfl, rfl, rfl, rfl⟩

end Sys2Proof.Machine
end
